-- ==== Sys2Proof/Word.lean ====
section
/-! DEFINITION. The words of MKCI-32 (spec 00_scope.md R5, R7, R8): 32-bit data words, 48-bit command words,
36-bit response words. Bit 0 is the least significant bit of each; a word is never split into bytes (20_memory.md R52). -/

namespace Sys2Proof

/-- A 32-bit word: a mask, a permutation value or a table entry (00_scope.md R5). -/
abbrev Word := BitVec 32

/-- A 48-bit command word (30_encoding.md R70). -/
abbrev CommandWord := BitVec 48

/-- A 36-bit response word (30_encoding.md R80). -/
abbrev ResponseWord := BitVec 36

end Sys2Proof
end

