-- ==== Sys2Proof/Syntax.lean ====
section
/-! DEFINITION. The seven commands of MKCI-32 (30_encoding.md R78, spec/opcode_table.json), one constructor a row.
Counts, indices and cursor numbers are natural numbers, masks and values are words (log 14). -/

namespace Sys2Proof

/-- A command with its operands (30_encoding.md R71, R75, R84). -/
inductive Instr where
  /-- BUILD mask: build the base table (40_table_builder.md R101). -/
  | build (mask : Word)
  /-- RDTAB j: read one table entry (40_table_builder.md R105). -/
  | rdtab (j : Nat)
  /-- ADVANCE k, current: the next k-subset after `current` (41_advance.md R120). -/
  | advance (k : Nat) (current : Word)
  /-- SEQINIT mask, k: construct the sequence (42_sequence.md R141). -/
  | seqinit (mask : Word) (k : Nat)
  /-- CURNEW c: a fresh cursor in slot c (42_sequence.md R144). -/
  | curnew (cid : Nat)
  /-- NEXT c: pull one value from cursor c (42_sequence.md R146). -/
  | next (cid : Nat)
  /-- RDSTAT c: read the status word with cursor c's state (43_status.md R170). -/
  | rdstat (cid : Nat)
  deriving DecidableEq, Repr

end Sys2Proof
end

