-- ==== Sys2Proof/WellFormed.lean ====
section
/-! DEFINITION. Which commands the 48-bit encoding can hold: `K` is a 6-bit field and `CID` a 4-bit field
(30_encoding.md R71). `K = 33..63` and `CID >= NCUR` are well formed: they are legal encodings whose execution
faults (R82). -/

namespace Sys2Proof

/-- The operand of a `K` field: 6 bits, `0..63` (30_encoding.md R73). -/
abbrev FitsK (k : Nat) : Prop := k < 64

/-- The operand of a `CID` field: 4 bits, `0..15` (30_encoding.md R72). -/
abbrev FitsCid (c : Nat) : Prop := c < 16

/-- Every operand fits its field. -/
def Instr.wf (i : Instr) : Bool :=
  match i with
  | .build _ => true
  | .rdtab j => decide (FitsK j)
  | .advance k _ => decide (FitsK k)
  | .seqinit _ k => decide (FitsK k)
  | .curnew c => decide (FitsCid c)
  | .next c => decide (FitsCid c)
  | .rdstat c => decide (FitsCid c)

end Sys2Proof
end

