-- ==== Sys2Proof/Decode.lean ====
section
/-! DEFINITION. The decoder and the encoder of command words (30_encoding.md R70 to R79, R82). Decoding is total on
all 2^48 words; a word that is no command is rejected by name. Range and state checks are made when the command
executes, not here (R79). -/

namespace Sys2Proof

/-- `OP`, bits 47 to 44 (30_encoding.md R71). -/
def fieldOp (cw : CommandWord) : BitVec 4 := cw.extractLsb' 44 4

/-- `CID`, bits 43 to 40 (30_encoding.md R71). -/
def fieldCid (cw : CommandWord) : BitVec 4 := cw.extractLsb' 40 4

/-- `RSV`, bits 39 and 38 (30_encoding.md R71). -/
def fieldRsv (cw : CommandWord) : BitVec 2 := cw.extractLsb' 38 2

/-- `K`, bits 37 to 32 (30_encoding.md R71). -/
def fieldK (cw : CommandWord) : BitVec 6 := cw.extractLsb' 32 6

/-- `DATA`, bits 31 to 0 (30_encoding.md R71). -/
def fieldData (cw : CommandWord) : Word := cw.extractLsb' 0 32

/-- Why a word is no command (30_encoding.md R82). -/
inductive Illegal where
  /-- `OP` is 0 or 8 to 15 (60_exceptions.md R186). -/
  | illegalOp
  /-- A must-be-zero field of the command's format is nonzero (60_exceptions.md R187). -/
  | badField
  deriving DecidableEq, Repr

/-- A row of the opcode table (30_encoding.md R78): a word `w` is this row's command exactly when
`w &&& mask = pattern`; `make` builds the command from `CID`, `K` and `DATA`. -/
structure OpcodeRow where
  pattern : CommandWord
  mask : CommandWord
  make : Nat → Nat → Word → Instr

/-- The opcode table by `OP` (30_encoding.md R78, spec/opcode_table.json). -/
def opcodeRow : Nat → Option OpcodeRow
  | 1 => some ⟨0x100000000000#48, 0xFFFF00000000#48, fun _ _ data => .build data⟩
  | 2 => some ⟨0x200000000000#48, 0xFFC0FFFFFFFF#48, fun _ k _ => .rdtab k⟩
  | 3 => some ⟨0x300000000000#48, 0xFFC000000000#48, fun _ k data => .advance k data⟩
  | 4 => some ⟨0x400000000000#48, 0xFFC000000000#48, fun _ k data => .seqinit data k⟩
  | 5 => some ⟨0x500000000000#48, 0xF0FFFFFFFFFF#48, fun cid _ _ => .curnew cid⟩
  | 6 => some ⟨0x600000000000#48, 0xF0FFFFFFFFFF#48, fun cid _ _ => .next cid⟩
  | 7 => some ⟨0x700000000000#48, 0xF0FFFFFFFFFF#48, fun cid _ _ => .rdstat cid⟩
  | _ => none

/-- Decoding, in the order of 30_encoding.md R79: first the opcode, then the must-be-zero fields. -/
def decode (cw : CommandWord) : Except Illegal Instr :=
  match opcodeRow (fieldOp cw).toNat with
  | none => .error .illegalOp
  | some row =>
    if cw &&& row.mask ≠ row.pattern then .error .badField
    else .ok (row.make (fieldCid cw).toNat (fieldK cw).toNat (fieldData cw))

/-- The word `OP << 44 | CID << 40 | K << 32 | DATA` with `RSV` zero (30_encoding.md R84). -/
def packWord (op : BitVec 4) (cid k : Nat) (data : Word) : CommandWord :=
  op ++ (BitVec.ofNat 4 cid ++ (0#2 ++ (BitVec.ofNat 6 k ++ data)))

/-- The command word of a command (30_encoding.md R78, R84). -/
def encode : Instr → CommandWord
  | .build mask => packWord 1#4 0 0 mask
  | .rdtab j => packWord 2#4 0 j 0#32
  | .advance k current => packWord 3#4 0 k current
  | .seqinit mask k => packWord 4#4 0 k mask
  | .curnew c => packWord 5#4 c 0 0#32
  | .next c => packWord 6#4 c 0 0#32
  | .rdstat c => packWord 7#4 c 0 0#32

/-- The command word whose bits are `w`, numbered as spec/opcode_table.json numbers them: one word of 48 bits, bit 0
the least significant, the bits above `nbits` zero (log 17). -/
def commandOfBits (nbits w : Nat) : CommandWord := BitVec.ofNat 48 (w % 2 ^ nbits)

/-- What the decoder reads from the bits of a word of the opcode table. -/
def decodeTableWord (nbits w : Nat) : Option Instr :=
  match decode (commandOfBits nbits w) with
  | .ok i => some i
  | .error _ => none

end Sys2Proof
end

