-- ==== Sys2Proof/Machine/Bits.lean ====
section
/-! DEFINITION. The primitives on 32-bit words of 00_scope.md R10: population count, lowest set bit, subset. Addition and
subtraction modulo 2^32, AND, OR, complement and unsigned comparison are those of `BitVec 32`. -/

namespace Sys2Proof.Machine

/-- The number of set bits of `a` at positions below `n`. -/
def popcountBelow (a : Word) (n : Nat) : Nat := (List.range n).countP fun b => a.getLsbD b

/-- `popcount(a)`: the number of bits of `a` that are 1 (00_scope.md R10). -/
def popcount (a : Word) : Nat := popcountBelow a 32

/-- `lsb(a) = a & (0 - a)`: the word holding only the lowest set bit of `a`; `lsb(0) = 0` (00_scope.md R10). -/
def lsb (a : Word) : Word := a &&& (0#32 - a)

/-- `a ⊆ b`: every set bit of `a` is set in `b`, that is `a & ~b = 0` (00_scope.md R10). -/
abbrev SubsetOf (a b : Word) : Prop := a &&& ~~~b = 0#32

end Sys2Proof.Machine
end

