-- ==== Sys2Proof/Config.lean ====
section
/-! DEFINITION. What an implementation of MKCI-32 fixes (00_scope.md R6) and the one free value of the spec
(41_advance.md R128). -/

namespace Sys2Proof

/-- The two open parameters of the block (00_scope.md R6). The machine carries them beside its state
(log 1): `ncur` is the length of the cursor file, `debugCheck` a field that no step writes. -/
structure Config where
  /-- `NCUR`, the number of cursor slots. -/
  ncur : Nat
  /-- `DEBUG_CHECK`, whether ADVANCE checks `popcount(current) = k`. -/
  debugCheck : Bool
  deriving DecidableEq, Repr

/-- `NCUR` lies in 1 to 16 (00_scope.md R6). -/
abbrev Config.wf (c : Config) : Prop := 1 ≤ c.ncur ∧ c.ncur ≤ 16

/-- The configuration 95_test_vectors.md uses where a vector names no other: `NCUR = 2`, `DEBUG_CHECK = false`.
DESIGN CHOICE (log 1): only `Machine.State.reset` uses it. -/
def Config.ofVectors : Config := { ncur := 2, debugCheck := false }

/-- The free answers of out-of-contract ADVANCE commands (41_advance.md R128, 93_implementation_defined.md U1):
the n-th draw is `freeWord n`. It has no body, so nothing can be proved of any of its values (log 4). -/
opaque Config.freeWord : Nat → Word

end Sys2Proof
end

