-- ==== Sys2Proof/Machine/State.lean ====
section
/-! DEFINITION. The state of MKCI-32: everything 10_state.md R20 names, the response port and the host's side of the
interface (70_reset_and_hazards.md R222 to R227), the carried configuration (log 1) and the counter of free values
(log 4). Plain data throughout. -/

namespace Sys2Proof.Machine

/-- The base table `T[0..32]`: 33 registers of 32 bits (10_state.md R21). -/
abbrev Table := Vector Word 33

/-- The states of a cursor (10_state.md R28). Code 3 is never produced and has no constructor
(93_implementation_defined.md U10). -/
inductive CursorState where
  /-- No value has been yielded yet in this traversal. -/
  | new
  /-- `CUR[c]` holds the value most recently yielded. -/
  | active
  /-- The traversal has ended. -/
  | done
  deriving DecidableEq, Repr

/-- One cursor slot: the pair `CST[c]`, `CUR[c]` (10_state.md R27). -/
structure Cursor where
  cst : CursorState
  cur : Word
  deriving DecidableEq, Repr

/-- The fault causes of 60_exceptions.md R181. -/
inductive FaultCode where
  | illegalOp
  | badField
  | countRange
  | badCid
  | noTable
  | noSeq
  | precond
  deriving DecidableEq, Repr

/-- The response statuses that are ever produced (30_encoding.md R81). -/
inductive Status where
  /-- The command completed. -/
  | ok
  /-- NEXT only: the sequence is exhausted for this cursor. -/
  | ended
  /-- The block is, or has just become, faulted. -/
  | fault
  deriving DecidableEq, Repr

/-- What the host does next (70_reset_and_hazards.md R227; log 5). -/
inductive HostInput where
  /-- Present a command word and hold it until the block accepts it (R223). -/
  | command (w : CommandWord)
  /-- Take the waiting response (R224). -/
  | takeResponse
  /-- Assert `rst` (R210, R211). -/
  | reset
  deriving DecidableEq, Repr

/-- The state of the block and of its interface. -/
structure State where
  /-- `T[0..32]`. -/
  table : Table
  /-- `TV`: `T` holds a table built since reset. -/
  tv : Bool
  /-- `SV`: a sequence exists. -/
  sv : Bool
  /-- `KREG`: the sequence's count. -/
  kreg : BitVec 6
  /-- `EMPTY`: the sequence is permanently empty. -/
  empty : Bool
  /-- The cursor file, slot 0 first; its length is `NCUR` (10_state.md R27). -/
  cursors : List Cursor
  /-- `FAULT`: the sticky fault flag. -/
  fault : Bool
  /-- `FCODE`: the code of the fault that set `FAULT`. -/
  fcode : BitVec 4
  /-- `DEBUG_CHECK`: configuration, never written (log 1). -/
  debugCheck : Bool
  /-- The response port: the word that waits to be taken (70_reset_and_hazards.md R224). -/
  rsp : Option ResponseWord
  /-- The host's side: what the host does next, oldest first (log 5). -/
  inputs : List HostInput
  /-- The model's own counter of free values drawn (log 4). -/
  draws : Nat
  deriving DecidableEq, Repr

/-- The model's fault reasons: NONE. Every command of the spec is answered (70_reset_and_hazards.md R226) and the spec's
own `Fault` is a next state (`Machine.raiseFault`), so nothing raises one; that the type is empty is safe (log 10). -/
inductive Fault
  deriving DecidableEq, Repr

/-- The model's refusal reasons. -/
inductive Refusal where
  /-- A command that has no meaning yet, rejected by name in exec's arm; no arm raises it. Safe. -/
  | notModelled (mnemonic : String)
  deriving DecidableEq, Repr

/-- The outcome of a command or a step. -/
abbrev Result := Host.Outcome State Fault Refusal

/-- The state right after reset of a block built with configuration `c` (10_state.md R37, 70_reset_and_hazards.md R210).
`T` and `CUR` are unspecified there; the zeros are a DESIGN CHOICE (log 2, log 3). -/
def State.resetOf (c : Config) : State where
  table := Vector.replicate 33 0#32
  tv := false
  sv := false
  kreg := 0#6
  empty := false
  cursors := List.replicate c.ncur { cst := .new, cur := 0#32 }
  fault := false
  fcode := 0#4
  debugCheck := c.debugCheck
  rsp := none
  inputs := []
  draws := 0

/-- The state right after reset, for the configuration of 95_test_vectors.md (log 1). -/
def State.reset : State := State.resetOf Config.ofVectors

end Sys2Proof.Machine
end

