-- ==== Sys2Proof/Machine/Ops.lean ====
section
/-! DEFINITION. The codes of states, faults and statuses (10_state.md R28, 60_exceptions.md R181, 30_encoding.md R81), the views
of the state the interface shows (70_reset_and_hazards.md R222, R223), and the shared operations of the command executor:
answering, raising a fault and the answer of a faulted block (60_exceptions.md R184, R185), the checks made before a command
writes anything (R183), the cursor file (10_state.md R27), the free answer (41_advance.md R128), and the host's other actions:
taking a response and reset (70_reset_and_hazards.md R210, R224). -/

namespace Sys2Proof.Machine

/-- The 2-bit code of a cursor state (10_state.md R28). -/
def CursorState.code : CursorState → BitVec 2
  | .new => 0#2
  | .active => 1#2
  | .done => 2#2

/-- The 4-bit fault codes of 60_exceptions.md R181. -/
def FaultCode.code : FaultCode → BitVec 4
  | .illegalOp => 1#4
  | .badField => 2#4
  | .countRange => 3#4
  | .badCid => 4#4
  | .noTable => 5#4
  | .noSeq => 6#4
  | .precond => 7#4

/-- The 4-bit status codes of 30_encoding.md R81. -/
def Status.code : Status → BitVec 4
  | .ok => 0x0#4
  | .ended => 0x1#4
  | .fault => 0xF#4

/-- The response word `ST[35:32] VALUE[31:0]` (30_encoding.md R80). -/
def responseWord (st : Status) (value : Word) : ResponseWord := st.code ++ value

/-- `NCUR`, the number of cursor slots (00_scope.md R6, 10_state.md R27): the length of the cursor file. -/
def State.ncur (s : State) : Nat := s.cursors.length

/-- The configuration the block was built with (00_scope.md R6). -/
def State.config (s : State) : Config := { ncur := s.ncur, debugCheck := s.debugCheck }

/-- `cmd_ready`: a command can be accepted, no response is waiting (70_reset_and_hazards.md R223). -/
def State.cmdReady (s : State) : Bool := s.rsp.isNone

/-- The optional output `fault`, equal to the flag (70_reset_and_hazards.md R222). -/
def State.faultPin (s : State) : Bool := s.fault

/-- `respond(st, v)`: the command ends and its response word goes to the response port
(30_encoding.md R80, 70_reset_and_hazards.md R224). -/
def respond (st : Status) (value : Word) (s : State) : State := { s with rsp := some (responseWord st value) }

/-- The VALUE of a FAULT response, `zext_32(FCODE)` (30_encoding.md R81). -/
def faultValue (code : BitVec 4) : Word := code.setWidth 32

/-- `raise Fault(code)`, the only way a fault is taken: `FAULT` and `FCODE` are written, the answer is FAULT with the code,
and nothing else changes (60_exceptions.md R184). -/
def raiseFault (code : FaultCode) (s : State) : State :=
  respond .fault (faultValue code.code) { s with fault := true, fcode := code.code }

/-- The answer of a faulted block to any word: FAULT with the first fault's code, and no state change
(60_exceptions.md R185). -/
def answerFaulted (s : State) : State := respond .fault (faultValue s.fcode) s

/-- Test 0 of 60_exceptions.md R183: a faulted block only answers FAULT. -/
def unlessFaulted (s : State) (rest : Result) : Result := if s.fault then .next (answerFaulted s) else rest

/-- One test of 60_exceptions.md R183: raise `code` if `bad` holds, else go on. -/
def faultIf (bad : Prop) [Decidable bad] (code : FaultCode) (s : State) (rest : Result) : Result :=
  if bad then .next (raiseFault code s) else rest

/-- The cursor in slot `c`. It is read only where `c < NCUR` (60_exceptions.md R189); beyond, the value given here is
never looked at (log 12). -/
def State.slot (s : State) (c : Nat) : Cursor := s.cursors.getD c { cst := .new, cur := 0#32 }

/-- `CST[c] <- cst` (10_state.md R27); `CUR[c]` is left as it was (42_sequence.md R144; log 13). -/
def State.setCst (s : State) (c : Nat) (cst : CursorState) : State :=
  { s with cursors := s.cursors.set c { s.slot c with cst := cst } }

/-- `CST[c] <- ACTIVE`, `CUR[c] <- v`: the cursor yields `v` (42_sequence.md R146). -/
def State.setActive (s : State) (c : Nat) (v : Word) : State :=
  { s with cursors := s.cursors.set c { cst := .active, cur := v } }

/-- `CST[c] <- NEW` for every slot (40_table_builder.md R101, 42_sequence.md R141); every `CUR[c]` is left as it was
(10_state.md R36; log 13). -/
def renewAll (cs : List Cursor) : List Cursor := cs.map fun x => { x with cst := .new }

/-- `respond(OK, v)` for an arbitrary 32-bit `v`, drawn afresh (41_advance.md R128): nothing changes but the response and
the model's counter of draws (log 4). -/
def respondFree (s : State) : State := respond .ok (Config.freeWord s.draws) { s with draws := s.draws + 1 }

/-- The host takes the waiting response (70_reset_and_hazards.md R224); nothing else changes. -/
def takeResponse (s : State) : State := { s with rsp := none }

/-- The host asserts `rst`: every piece of state takes its reset value, the configuration is not touched
(70_reset_and_hazards.md R210), and a response not yet taken is dropped (log 6). What the host does next and the model's
counter of draws are no state of the block and stay (log 4, log 5). -/
def applyReset (s : State) : State := { State.resetOf s.config with inputs := s.inputs, draws := s.draws }

/-- The state in which `w` is the very next thing the host does and no response waits. -/
def presentCommand (w : CommandWord) (s : State) : State :=
  { s with rsp := none, inputs := .command w :: s.inputs }

end Sys2Proof.Machine
end

