-- ==== Sys2Proof/Machine/Operands.lean ====
section
/-! DEFINITION. How a command's operands reach the state: the table index (20_memory.md R51, R53), the count and the cursor
number with the range tests of 60_exceptions.md R188 and R189. -/

namespace Sys2Proof.Machine

/-- `T[j]` (00_scope.md R11). Every index the rules use is in `0..32` (20_memory.md R53); beyond, entry 32 is read, which no
rule ever does (log 11). -/
def readTable (t : Table) (j : Nat) : Word := t[min j 32]

/-- The mask of the table: `T[32]` (10_state.md R22). -/
def State.mask (s : State) : Word := readTable s.table 32

/-- `K > 32` (60_exceptions.md R188). -/
abbrev CountOutOfRange (k : Nat) : Prop := 32 < k

/-- `CID >= NCUR` (60_exceptions.md R189). -/
abbrev NoSuchSlot (s : State) (c : Nat) : Prop := s.ncur ≤ c

end Sys2Proof.Machine
end

