-- ==== Sys2Proof/Machine/Flags.lean ====
section
/-! DEFINITION. The computed flag `EMPTY` (42_sequence.md R141) and the status word (43_status.md R171). The other flags are
written as constants by the commands (10_state.md R31); there are no condition codes. -/

namespace Sys2Proof.Machine

/-- `EMPTY`: 1 when `k > popcount(mask)` (42_sequence.md R141). -/
def emptyFlag (mask : Word) (k : Nat) : Bool := decide (popcount mask < k)

/-- A flag as the 32-bit word 0 or 1. -/
def flagWord (b : Bool) : Word := (BitVec.ofBool b).setWidth 32

/-- `status_word(c)`: `TV` in bit 0, `SV` in bit 1, `EMPTY` in bit 2, `KREG` in bits 13 to 8, `CST[c]` in bits 17 and 16,
every other bit 0 (43_status.md R171). -/
def statusWord (s : State) (c : Nat) : Word :=
  (s.slot c).cst.code.setWidth 32 <<< 16 ||| s.kreg.setWidth 32 <<< 8 ||| flagWord s.empty <<< 2 |||
    flagWord s.sv <<< 1 ||| flagWord s.tv

end Sys2Proof.Machine
end

