-- ==== Sys2Proof/Machine/Advance.lean ====
section
/-! DEFINITION. The next-subset advance engine: `adv` (41_advance.md R122) and ADVANCE (R120, R127, R128). -/

namespace Sys2Proof.Machine

/-- Steps 1 to 3 of 41_advance.md R122: `t = current | (current - 1) | ~m`, `raw = t + 1`, `next_upper = raw & m`, all modulo
2^32. -/
def nextUpper (m current : Word) : Word := ((current ||| (current - 1#32) ||| ~~~m) + 1#32) &&& m

/-- `adv(T, k, current)` (41_advance.md R122). In contract `need` is in `0..k` (R125); out of contract this value is never
answered by ADVANCE (R128) and never asked for by NEXT (10_state.md R29; log 11). -/
def adv (t : Table) (k : Nat) (current : Word) : Word :=
  let upper := nextUpper (readTable t 32) current
  let need := k - popcount upper
  upper ||| readTable t need

/-- In contract: `current ⊆ T[32]` and `popcount(current) = k` (41_advance.md R121). -/
abbrev InContract (t : Table) (k : Nat) (current : Word) : Prop :=
  SubsetOf current (readTable t 32) ∧ popcount current = k

/-- ADVANCE k, current (41_advance.md R120). -/
def execAdvance (k : Nat) (current : Word) (s : State) : Result :=
  unlessFaulted s <|
  faultIf (CountOutOfRange k) .countRange s <|
  faultIf (s.tv = false) .noTable s <|
  faultIf (s.debugCheck = true ∧ popcount current ≠ k) .precond s <|
  if InContract s.table k current then .next (respond .ok (adv s.table k current) s)
  else .next (respondFree s)

end Sys2Proof.Machine
end

