-- ==== Sys2Proof/Machine/Builder.lean ====
section
/-! DEFINITION. The base-table builder: `bases` (40_table_builder.md R100), BUILD (R101) and RDTAB (R105). -/

namespace Sys2Proof.Machine

/-- `n` iterations of the builder's loop and the final entry: record the accumulator, extract the lowest set bit of the
working copy, clear it there, OR it into the accumulator (40_table_builder.md R100). -/
def basesFrom : Nat → Word → Word → List Word
  | 0, acc, _ => [acc]
  | n + 1, acc, work => acc :: basesFrom n (acc ||| lsb work) (work &&& ~~~(lsb work))

theorem basesFrom_length (n : Nat) (acc work : Word) : (basesFrom n acc work).length = n + 1 := by
  induction n generalizing acc work with
  | zero => rfl
  | succ n ih => simp [basesFrom, ih]

/-- `bases(mask)`: the 33 entries after 32 iterations from accumulator 0 and working copy `mask`
(40_table_builder.md R100). -/
def bases (mask : Word) : Table := ⟨(basesFrom 32 0#32 mask).toArray, by simp [basesFrom_length]⟩

/-- BUILD mask (40_table_builder.md R101). -/
def execBuild (mask : Word) (s : State) : Result :=
  unlessFaulted s <|
  .next (respond .ok 0#32
    { s with
      table := bases mask
      tv := true
      sv := false
      kreg := 0#6
      empty := false
      cursors := renewAll s.cursors })

/-- RDTAB j (40_table_builder.md R105). -/
def execRdtab (j : Nat) (s : State) : Result :=
  unlessFaulted s <|
  faultIf (CountOutOfRange j) .countRange s <|
  faultIf (s.tv = false) .noTable s <|
  .next (respond .ok (readTable s.table j) s)

end Sys2Proof.Machine
end

