-- ==== Sys2Proof/Machine/Sequence.lean ====
section
/-! DEFINITION. The permutation sequence and its cursors: SEQINIT (42_sequence.md R141), CURNEW (R144) and NEXT (R146). -/

namespace Sys2Proof.Machine

/-- SEQINIT mask, k (42_sequence.md R141): the table is built in every case, also when the sequence is empty (R142). -/
def execSeqinit (mask : Word) (k : Nat) (s : State) : Result :=
  unlessFaulted s <|
  faultIf (CountOutOfRange k) .countRange s <|
  .next (respond .ok 0#32
    { s with
      table := bases mask
      tv := true
      sv := true
      kreg := BitVec.ofNat 6 k
      empty := emptyFlag mask k
      cursors := renewAll s.cursors })

/-- CURNEW c (42_sequence.md R144). -/
def execCurnew (c : Nat) (s : State) : Result :=
  unlessFaulted s <|
  faultIf (NoSuchSlot s c) .badCid s <|
  faultIf (s.sv = false) .noSeq s <|
  .next (respond .ok 0#32 (s.setCst c .new))

/-- The seed `T[KREG]`, the first value of every traversal (42_sequence.md R143). -/
def State.seed (s : State) : Word := readTable s.table s.kreg.toNat

/-- The arms of NEXT on a sequence that is not empty, by `CST[c]` (42_sequence.md R146): a new cursor yields the seed, an active
one the candidate if it is greater than the current value, and otherwise the traversal ends. -/
def pull (c : Nat) (s : State) : State :=
  match (s.slot c).cst with
  | .new => respond .ok s.seed (s.setActive c s.seed)
  | .active =>
    let cand := adv s.table s.kreg.toNat (s.slot c).cur
    if (s.slot c).cur < cand then respond .ok cand (s.setActive c cand)
    else respond .ended 0#32 (s.setCst c .done)
  | .done => respond .ended 0#32 s

/-- NEXT c (42_sequence.md R146). -/
def execNext (c : Nat) (s : State) : Result :=
  unlessFaulted s <|
  faultIf (NoSuchSlot s c) .badCid s <|
  faultIf (s.sv = false) .noSeq s <|
  if s.empty then .next (respond .ended 0#32 (s.setCst c .done))
  else .next (pull c s)

end Sys2Proof.Machine
end

