-- ==== Sys2Proof/Machine/Status.lean ====
section
/-! DEFINITION. The status read RDSTAT (43_status.md R170). -/

namespace Sys2Proof.Machine

/-- RDSTAT c (43_status.md R170): legal straight after reset, needs neither a table nor a sequence. -/
def execRdstat (c : Nat) (s : State) : Result :=
  unlessFaulted s <|
  faultIf (NoSuchSlot s c) .badCid s <|
  .next (respond .ok (statusWord s c) s)

end Sys2Proof.Machine
end

