-- ==== Sys2Proof/Machine/Dispatch.lean ====
section
/-! DEFINITION. The command executor's dispatch: one arm per command (30_encoding.md R78). -/

namespace Sys2Proof.Machine

def exec (i : Instr) (s : State) : Host.Outcome State Fault Refusal :=
  match i with
  | .build mask => Sys2Proof.Machine.execBuild mask s
  | .rdtab j => Sys2Proof.Machine.execRdtab j s
  | .advance k current => Sys2Proof.Machine.execAdvance k current s
  | .seqinit mask k => Sys2Proof.Machine.execSeqinit mask k s
  | .curnew c => Sys2Proof.Machine.execCurnew c s
  | .next c => Sys2Proof.Machine.execNext c s
  | .rdstat c => Sys2Proof.Machine.execRdstat c s

end Sys2Proof.Machine
end

