-- ==== Sys2Proof/Machine/Transaction.lean ====
section
/-! DEFINITION. One transaction (00_scope.md R13) and one action of the host (70_reset_and_hazards.md R223, R224, R227): what a
step of the machine does. -/

namespace Sys2Proof.Machine

/-- The fault an illegal word raises (60_exceptions.md R186, R187). -/
def illegalCode : Illegal → FaultCode
  | .illegalOp => .illegalOp
  | .badField => .badField

/-- One command word, whole (00_scope.md R13): a faulted block does not decode it (60_exceptions.md R185), an illegal word
raises its fault, and a command is executed; the order is that of R183. -/
def transact (w : CommandWord) (s : State) : Result :=
  unlessFaulted s <|
  match decode w with
  | .error e => .next (raiseFault (illegalCode e) s)
  | .ok i => exec i s

/-- The host holds a command while a response waits (70_reset_and_hazards.md R223): the command is not accepted, and what the
host does next happens while it goes on holding the command: it takes the response or asserts `rst`. If it does neither, nothing
changes (R224, R227; log 5). `rest` is what the host does beside holding `w`. -/
def holdCommand (w : CommandWord) (rest : List HostInput) (s : State) : State :=
  match rest with
  | .takeResponse :: more => takeResponse { s with inputs := .command w :: more }
  | .reset :: more => applyReset { s with inputs := .command w :: more }
  | _ => s

/-- The host's next action. With none, nothing happens (70_reset_and_hazards.md R227). A command is accepted only when no
response waits (R223); until then it is held. -/
def hostAction (s : State) : Result :=
  match s.inputs with
  | [] => .next s
  | .reset :: rest => .next (applyReset { s with inputs := rest })
  | .takeResponse :: rest => .next (takeResponse { s with inputs := rest })
  | .command w :: rest => if s.cmdReady then transact w { s with inputs := rest } else .next (holdCommand w rest s)

end Sys2Proof.Machine
end

