-- ==== Sys2Proof/Machine/Step.lean ====
section
/-! DEFINITION. The step of the machine: the host's next action (`hostAction`), and where a step fetches its next command. -/

namespace Sys2Proof.Machine

/-- One step: the block handles the next thing the host does (00_scope.md R12, R13). -/
def step (s : State) : Host.Outcome State Fault Refusal := hostAction s

/-- `s` with the word whose bits are `w` as the very next command the host presents, no response waiting (log 7, log 17). -/
def State.withFetchWord (s : State) (nbits w : Nat) : State := presentCommand (commandOfBits nbits w) s

end Sys2Proof.Machine
end

