-- ==== Sys2Proof/Safety.lean ====
section
/-! DEFINITION. The terms the claims are stated in: the table of a mask and the k-subsets of a mask, said bit by bit and not by
the algorithms of the machine (10_state.md R22, 41_advance.md R126); the invariant of the block (10_state.md R22, R26, R29, R32);
what each command may raise (60_exceptions.md R182); a run and its responses (00_scope.md R14). -/

namespace Sys2Proof.Machine

/-- `v` is "the bitwise OR of the `j` lowest-order set bits" of `m` (10_state.md R22): bit `b` of `v` is set exactly when bit `b`
of `m` is set and fewer than `j` set bits of `m` lie below it. -/
abbrev IsLowestBits (m : Word) (j : Nat) (v : Word) : Prop :=
  ∀ b, b < 32 → v.getLsbD b = (m.getLsbD b && decide (popcountBelow m b < j))

/-- `v` is the OR of the `k` highest set bits of `m` (42_sequence.md R148): bit `b` of `v` is set exactly when bit `b` of `m` is set
and fewer than `k` set bits of `m` lie above it. -/
abbrev IsHighestBits (m : Word) (k : Nat) (v : Word) : Prop :=
  ∀ b, b < 32 → v.getLsbD b = (m.getLsbD b && decide (popcount m - popcountBelow m (b + 1) < k))

/-- `t` is the base table of `m` (10_state.md R22): entry `j` is the OR of the `j` lowest set bits of `m`, for every `j` in
`0..32`. -/
abbrev IsTableOf (t : Table) (m : Word) : Prop := ∀ j, j < 33 → IsLowestBits m j (readTable t j)

/-- `v` is in `S(m, k)`: a subset of `m` with exactly `k` bits set (41_advance.md R126). -/
abbrev KSubset (m : Word) (k : Nat) (v : Word) : Prop := SubsetOf v m ∧ popcount v = k

/-- `v` is the least element of `S(m, k)` (41_advance.md R126). -/
abbrev IsLeast (m : Word) (k : Nat) (v : Word) : Prop := KSubset m k v ∧ ∀ u, KSubset m k u → v ≤ u

/-- `v` is the least element of `S(m, k)` greater than `u` (41_advance.md R126). -/
abbrev IsNextAfter (m : Word) (k : Nat) (u v : Word) : Prop :=
  KSubset m k v ∧ u < v ∧ ∀ x, KSubset m k x → u < x → v ≤ x

/-- `u` is the greatest element of `S(m, k)` (41_advance.md R126). -/
abbrev IsGreatest (m : Word) (k : Nat) (u : Word) : Prop := KSubset m k u ∧ ∀ x, KSubset m k x → x ≤ u

/-- The invariant of the block. Every clause is one the spec states of every state after reset. -/
structure State.Inv (s : State) : Prop where
  /-- `NCUR` is in 1 to 16 (00_scope.md R6). -/
  slots : 1 ≤ s.ncur ∧ s.ncur ≤ 16
  /-- Whenever `TV = 1`, `T` is the base table of the mask `T[32]` (10_state.md R22). -/
  table : s.tv = true → IsTableOf s.table s.mask
  /-- Whenever `SV = 1`: `TV = 1`, `KREG <= 32`, and `EMPTY = 1` exactly when `KREG > popcount(T[32])` (10_state.md R26). -/
  sequence : s.sv = true → s.tv = true ∧ s.kreg.toNat ≤ 32 ∧ (s.empty = true ↔ popcount s.mask < s.kreg.toNat)
  /-- While `SV = 0`, `KREG`, `EMPTY` and every `CST[c]` are 0 (43_status.md R171). -/
  noSequence : s.sv = false → s.kreg = 0#6 ∧ s.empty = false ∧ ∀ x ∈ s.cursors, x.cst = .new
  /-- The value of an active cursor is in `S(T[32], KREG)` (10_state.md R29); a cursor of an empty sequence is never active
  (42_sequence.md R142). -/
  active : ∀ x ∈ s.cursors, x.cst = .active → s.empty = false ∧ KSubset s.mask s.kreg.toNat x.cur
  /-- `FCODE` is 0 while `FAULT = 0` and one of the codes 1 to 7 while `FAULT = 1` (10_state.md R32, 60_exceptions.md R181). -/
  faultCode : if s.fault = true then 1 ≤ s.fcode.toNat ∧ s.fcode.toNat ≤ 7 else s.fcode = 0#4
  /-- `PRECOND` is never recorded while `DEBUG_CHECK` is false (60_exceptions.md R192). -/
  precond : s.debugCheck = false → s.fcode ≠ 7#4
  /-- The waiting response is the FAULT answer of a faulted block, an OK answer, or END with value 0 (30_encoding.md R81). -/
  response : ∀ r, s.rsp = some r →
    if s.fault = true then r = responseWord .fault (faultValue s.fcode)
    else r = responseWord .ended 0#32 ∨ ∃ v, r = responseWord .ok v

/-- The faults a command can raise once its word has decoded (60_exceptions.md R182). -/
def mayRaise : Instr → List FaultCode
  | .build _ => []
  | .rdtab _ => [.countRange, .noTable]
  | .advance _ _ => [.countRange, .noTable, .precond]
  | .seqinit _ _ => [.countRange]
  | .curnew _ => [.badCid, .noSeq]
  | .next _ => [.badCid, .noSeq]
  | .rdstat _ => [.badCid]

/-- A must-be-zero field of the command's format is nonzero (30_encoding.md R75, 60_exceptions.md R187). -/
abbrev HasBadField (w : CommandWord) : Prop :=
  ((fieldOp w).toNat = 1 ∧ (fieldCid w ≠ 0#4 ∨ fieldRsv w ≠ 0#2 ∨ fieldK w ≠ 0#6)) ∨
  ((fieldOp w).toNat = 2 ∧ (fieldCid w ≠ 0#4 ∨ fieldRsv w ≠ 0#2 ∨ fieldData w ≠ 0#32)) ∨
  (((fieldOp w).toNat = 3 ∨ (fieldOp w).toNat = 4) ∧ (fieldCid w ≠ 0#4 ∨ fieldRsv w ≠ 0#2)) ∨
  (((fieldOp w).toNat = 5 ∨ (fieldOp w).toNat = 6 ∨ (fieldOp w).toNat = 7) ∧
    (fieldRsv w ≠ 0#2 ∨ fieldK w ≠ 0#6 ∨ fieldData w ≠ 0#32))

/-- The opcode field names no command (60_exceptions.md R186). -/
abbrev HasIllegalOp (w : CommandWord) : Prop := (fieldOp w).toNat = 0 ∨ 8 ≤ (fieldOp w).toNat

/-- The fault a word raises in an unfaulted block, by the tests of 60_exceptions.md R183 in their fixed order; `none` when no test
fails. It reads the word's fields and the flags only, not the decoder or the commands. -/
def firstFault (s : State) (w : CommandWord) : Option FaultCode :=
  let op := (fieldOp w).toNat
  if HasIllegalOp w then some .illegalOp
  else if HasBadField w then some .badField
  else if (op = 2 ∨ op = 3 ∨ op = 4) ∧ 32 < (fieldK w).toNat then some .countRange
  else if (op = 5 ∨ op = 6 ∨ op = 7) ∧ s.ncur ≤ (fieldCid w).toNat then some .badCid
  else if (op = 2 ∨ op = 3) ∧ s.tv = false then some .noTable
  else if (op = 5 ∨ op = 6) ∧ s.sv = false then some .noSeq
  else if op = 3 ∧ s.debugCheck = true ∧ popcount (fieldData w) ≠ (fieldK w).toNat then some .precond
  else none

/-- Every register of 10_state.md R20 is the same in `t` as in `s`. -/
abbrev SameRegisters (s t : State) : Prop :=
  t.table = s.table ∧ t.tv = s.tv ∧ t.sv = s.sv ∧ t.kreg = s.kreg ∧ t.empty = s.empty ∧ t.cursors = s.cursors ∧
    t.fault = s.fault ∧ t.fcode = s.fcode

/-- The commands that leave slot `c`'s traversal alone (42_sequence.md R150): reads, ADVANCE, and cursor commands on other
slots. -/
abbrev LeavesSlot (c : Nat) : Instr → Prop
  | .build _ => False
  | .rdtab _ => True
  | .advance _ _ => True
  | .seqinit _ _ => False
  | .curnew d => d ≠ c
  | .next d => d ≠ c
  | .rdstat _ => True

/-- The step is the host asserting `rst` (70_reset_and_hazards.md R211): its next action, or the one after a command that waits
for a response to be taken (R223). -/
def resetsNow (s : State) : Bool :=
  match s.inputs with
  | .reset :: _ => true
  | .command _ :: .reset :: _ => s.rsp.isSome
  | _ => false

/-- `s` with `v` in place of `CUR[c]` wherever `CST[c]` is not `ACTIVE`, where `CUR[c]` holds no value (10_state.md R29). -/
def scrub (v : Word) (s : State) : State :=
  { s with cursors := s.cursors.map fun x => if x.cst = .active then x else { x with cur := v } }

/-- A run (00_scope.md R14): the host presents the words in order, takes each response before it presents the next word, and
collects the responses; the result is the state after the last command and the list of responses. -/
def run (s : State) : List CommandWord → Option (State × List ResponseWord)
  | [] => some (s, [])
  | w :: ws =>
    match step (presentCommand w { s with inputs := [] }) with
    | .next t =>
      match t.rsp with
      | some r => (run t ws).map fun p => (p.1, r :: p.2)
      | none => none
    | .fault _ => none
    | .refused _ => none

/-- The response OK with value `v` (30_encoding.md R81). -/
def okWord (v : Word) : ResponseWord := 0x0#4 ++ v

/-- The response END (30_encoding.md R81). -/
def endWord : ResponseWord := 0x100000000#36

/-- `vs` is the list of the elements of `S(m, k)`, each once, in increasing order, `C(popcount(m), k)` of them
(42_sequence.md R148). -/
structure EnumeratesSubsets (m : Word) (k : Nat) (vs : List Word) : Prop where
  count : vs.length = (popcount m).choose k
  order : vs.Pairwise fun u v => u < v
  complete : ∀ v, v ∈ vs ↔ KSubset m k v

/-- The answers to the commands of `is` that equal `i`, in order. -/
def answersTo (i : Instr) (is : List Instr) (rs : List ResponseWord) : List ResponseWord :=
  ((is.zip rs).filter fun p => p.1 = i).map fun p => p.2

/-- A good run ends with no fault (60_exceptions.md R185). -/
def GoodRun (s : State) (ws : List CommandWord) : Prop :=
  ∃ t rs, run s ws = some (t, rs) ∧ t.fault = false

end Sys2Proof.Machine
end

