-- ==== Sys2Proof/Certificates/Slice0/Obligations.lean ====
section
/-! DEFINITION. The statements of this row, from the numbered rules of spec/. Each docstring names the rules; OBLIGATIONS.json
lists them. There is no memory in the block (20_memory.md R50), so no frame speaks of one. -/

open Sys2Proof Sys2Proof.Machine

/-! ## Encoding -/

/-- Decoding an encoded command gives it back, for every operand its fields admit (30_encoding.md R71, R78, R79, R84). -/
def Obligations.DecodeOfEncode : Prop :=
  ∀ i : Instr, i.wf = true → decode (encode i) = .ok i

/-- A word that decodes has exactly one reading: the command is well formed and encodes to that word (30_encoding.md R75, R78). -/
def Obligations.EncodeOfDecode : Prop :=
  ∀ (w : CommandWord) (i : Instr), decode w = .ok i → i.wf = true ∧ encode i = w

/-- The opcode table (30_encoding.md R78): a word `w` is the command of a row exactly when `w & mask == match`, and its operands are
then its fields `K`, `CID` and `DATA`. -/
def Obligations.DecodeFollowsOpcodeTable : Prop :=
  ∀ w : CommandWord,
    (w &&& 0xFFFF00000000#48 = 0x100000000000#48 ↔ decode w = .ok (.build (w.extractLsb' 0 32))) ∧
    (w &&& 0xFFC0FFFFFFFF#48 = 0x200000000000#48 ↔ decode w = .ok (.rdtab (w.extractLsb' 32 6).toNat)) ∧
    (w &&& 0xFFC000000000#48 = 0x300000000000#48 ↔
      decode w = .ok (.advance (w.extractLsb' 32 6).toNat (w.extractLsb' 0 32))) ∧
    (w &&& 0xFFC000000000#48 = 0x400000000000#48 ↔
      decode w = .ok (.seqinit (w.extractLsb' 0 32) (w.extractLsb' 32 6).toNat)) ∧
    (w &&& 0xF0FFFFFFFFFF#48 = 0x500000000000#48 ↔ decode w = .ok (.curnew (w.extractLsb' 40 4).toNat)) ∧
    (w &&& 0xF0FFFFFFFFFF#48 = 0x600000000000#48 ↔ decode w = .ok (.next (w.extractLsb' 40 4).toNat)) ∧
    (w &&& 0xF0FFFFFFFFFF#48 = 0x700000000000#48 ↔ decode w = .ok (.rdstat (w.extractLsb' 40 4).toNat))

/-- The illegal encodings (30_encoding.md R82): a word is rejected as `ILLEGAL_OP` exactly when `OP` is 0 or 8 to 15, and as
`BAD_FIELD` exactly when `OP` is 1 to 7 and a must-be-zero field of its format is nonzero. -/
def Obligations.DecodeRejectsByName : Prop :=
  ∀ w : CommandWord,
    (decode w = .error .illegalOp ↔ HasIllegalOp w) ∧ (decode w = .error .badField ↔ HasBadField w)

/-- The seven example words of the spec's syntax table decode to their commands (30_encoding.md R84). -/
def Obligations.ExampleWordsDecode : Prop :=
  decode 0x10000000001B#48 = .ok (.build 0x1B#32) ∧
  decode 0x200300000000#48 = .ok (.rdtab 3) ∧
  decode 0x300200000003#48 = .ok (.advance 2 0x3#32) ∧
  decode 0x40020000000B#48 = .ok (.seqinit 0xB#32 2) ∧
  decode 0x510000000000#48 = .ok (.curnew 1) ∧
  decode 0x600000000000#48 = .ok (.next 0) ∧
  decode 0x700000000000#48 = .ok (.rdstat 0)

/-! ## The step -/

/-- A step runs the decoded command: when no response waits and the host's next action presents a word, the step is that word's one
transaction (00_scope.md R13, 70_reset_and_hazards.md R223), and when the block is not faulted and the word decodes to `i`, it is
`exec i`. That the action is then used up (`inputs := rest`) is the model's form of the host's side (log 5). -/
def Obligations.StepRunsDecodedCommand : Prop :=
  ∀ (s : State) (w : CommandWord) (rest : List HostInput), s.inputs = .command w :: rest → s.rsp = none →
    step s = transact w { s with inputs := rest } ∧
    ∀ i : Instr, s.fault = false → decode w = .ok i → step s = exec i { s with inputs := rest }

/-- `ILLEGAL_OP` (60_exceptions.md R186): a word whose `OP` is 0 or 8 to 15, whatever its other bits, makes the block faulted with
code 1 and answers `0xF00000001`; nothing else changes. -/
def Obligations.IllegalOpcodeFaults : Prop :=
  ∀ (s : State) (w : CommandWord), s.fault = false → HasIllegalOp w →
    transact w s = .next { s with fault := true, fcode := 1#4, rsp := some 0xF00000001#36 }

/-- `BAD_FIELD` (60_exceptions.md R187): a word with `OP` in 1 to 7 and a nonzero must-be-zero field makes the block faulted with
code 2 and answers `0xF00000002`; nothing else changes. -/
def Obligations.BadFieldFaults : Prop :=
  ∀ (s : State) (w : CommandWord), s.fault = false → HasBadField w →
    transact w s = .next { s with fault := true, fcode := 2#4, rsp := some 0xF00000002#36 }

/-- The faulted state (60_exceptions.md R185): every word, legal or not, and every command is answered FAULT with the code of the
first fault, and no state changes. -/
def Obligations.FaultedBlockOnlyAnswersFault : Prop :=
  ∀ s : State, s.fault = true →
    (∀ w : CommandWord, transact w s = .next { s with rsp := some (0xF#4 ++ s.fcode.setWidth 32) }) ∧
    (∀ i : Instr, exec i s = .next { s with rsp := some (0xF#4 ++ s.fcode.setWidth 32) })

/-- What the host may do between commands (70_reset_and_hazards.md R223, R224, R227): while it does nothing nothing changes; a
command is not accepted while a response waits, and unless the host's next action is to take the response or to assert `rst` the
response stays as it is and nothing changes, whatever else follows, another command among it; taking the response, with or without a
command held, empties the port and changes nothing else. The list of host actions is the model's form (log 5). -/
def Obligations.HostWaitsAndTakesResponses : Prop :=
  ∀ s : State,
    (s.inputs = [] → step s = .next s) ∧
    (∀ w r rest, s.inputs = .command w :: rest → s.rsp = some r →
      (∀ more, rest ≠ .takeResponse :: more) → (∀ more, rest ≠ .reset :: more) → step s = .next s) ∧
    (∀ rest, s.inputs = .takeResponse :: rest → step s = .next { s with inputs := rest, rsp := none }) ∧
    (∀ w r rest, s.inputs = .command w :: .takeResponse :: rest → s.rsp = some r →
      step s = .next { s with inputs := .command w :: rest, rsp := none })

/-- Every accepted command is answered by exactly one response word (70_reset_and_hazards.md R224, R226; 30_encoding.md R80, R81): OK
with a value, END with value 0, or FAULT with `FCODE` and the block faulted; no other status is ever given. -/
def Obligations.AcceptedCommandIsAnswered : Prop :=
  ∀ (s : State) (w : CommandWord),
    ∃ (t : State) (r : ResponseWord), transact w s = .next t ∧ t.rsp = some r ∧
      ((∃ v : Word, r = 0x0#4 ++ v) ∨ r = 0x100000000#36 ∨
        (t.fault = true ∧ r = 0xF#4 ++ (t.fcode.setWidth 32 : Word)))

/-- The block never hangs (70_reset_and_hazards.md R226): a step from any state, and a command in any state, gives a next state. -/
def Obligations.NothingStopsTheBlock : Prop :=
  (∀ s : State, ∃ t, step s = .next t) ∧ (∀ (i : Instr) (s : State), ∃ t, exec i s = .next t)

/-! ## Reset and the invariant -/

/-- The state after reset (10_state.md R37), which holds for the state a block of any configuration starts in and for the state after
a reset in any state, faulted or not: `TV`, `SV`, `KREG`, `EMPTY`, `FAULT`, `FCODE` are 0 and every `CST[c]` is `NEW`. Nothing is
said of `T` and `CUR[c]`, which are unspecified. -/
def Obligations.ResetGivesResetValues : Prop :=
  ∀ t : State, ((∃ c : Config, t = State.resetOf c) ∨ t = State.reset ∨ ∃ s, t = applyReset s) →
    t.tv = false ∧ t.sv = false ∧ t.kreg = 0#6 ∧ t.empty = false ∧ (∀ x ∈ t.cursors, x.cst = .new) ∧
    t.fault = false ∧ t.fcode = 0#4

/-- The model's own part of a reset by the host, in any state and with or without a command held: the step is that reset, it keeps
the configuration, leaves no response waiting, so that the block is ready (70_reset_and_hazards.md R210, R212; log 6), and uses up one
action of the host (log 5). -/
def Obligations.ResetLeavesBlockReady : Prop :=
  ∀ s : State, resetsNow s = true →
    ∃ more, step s = .next (applyReset { s with inputs := more }) ∧ more.length + 1 = s.inputs.length ∧
      (applyReset { s with inputs := more }).cmdReady = true ∧
      (applyReset { s with inputs := more }).ncur = s.ncur ∧
      (applyReset { s with inputs := more }).debugCheck = s.debugCheck

/-- The state after reset of a block of any configuration meets the invariant, and so does `State.reset`, whose configuration is the
model's choice (log 1). That no response waits then is the model's reading (log 6). -/
def Obligations.ResetMeetsInvariant : Prop :=
  (∀ c : Config, c.wf → (State.resetOf c).Inv) ∧ State.reset.Inv

/-- Every step keeps the invariant of the block: the table invariant (10_state.md R22), the sequence invariant (R26), the cursor
invariant (R29), the fault registers (R32), the status word's zero fields while no sequence exists (43_status.md R171), the
responses that can be produced (30_encoding.md R81). For the last, that a reset leaves no response waiting is the model's reading
(log 6). -/
def Obligations.EveryStepKeepsInvariant : Prop :=
  ∀ s t : State, s.Inv → step s = .next t → t.Inv

/-- Reset is the only thing that clears `TV` and the only thing that clears `FAULT` (70_reset_and_hazards.md R210), and `FCODE`
does not change while `FAULT = 1` (10_state.md R32). -/
def Obligations.OnlyResetClearsTableValidAndFault : Prop :=
  ∀ s t : State, step s = .next t → resetsNow s = false →
    (s.tv = true → t.tv = true) ∧ (s.fault = true → t.fault = true ∧ t.fcode = s.fcode)

/-- `NCUR` and `DEBUG_CHECK` are fixed for the life of the block (10_state.md R35, 70_reset_and_hazards.md R210): no step, reset
included, changes them. That the state carries them is the model's form (log 1). -/
def Obligations.ConfigurationNeverChanges : Prop :=
  ∀ s t : State, step s = .next t → t.ncur = s.ncur ∧ t.debugCheck = s.debugCheck

/-! ## Faults -/

/-- Faults are precise (60_exceptions.md R184): whatever raises a fault, a word the decoder refuses or a command, the new state is the
old one with `FAULT`, `FCODE` and the FAULT answer, and nothing else changed. -/
def Obligations.FaultsArePrecise : Prop :=
  ∀ (s t : State) (w : CommandWord), s.fault = false → transact w s = .next t → t.fault = true →
    ∃ code : FaultCode,
      t = { s with fault := true, fcode := code.code, rsp := some (0xF#4 ++ (code.code.setWidth 32 : Word)) }

/-- Which command can raise which fault (60_exceptions.md R182): a command that makes the block faulted raises a fault of its row,
by `raise Fault` (R184). -/
def Obligations.CommandsRaiseOnlyTheirFaults : Prop :=
  ∀ (i : Instr) (s t : State), s.fault = false → exec i s = .next t → t.fault = true →
    ∃ code ∈ mayRaise i,
      t = { s with fault := true, fcode := code.code, rsp := some (0xF#4 ++ (code.code.setWidth 32 : Word)) }

/-- The fixed order of the tests (60_exceptions.md R183): a faulted block answers with its code; in an unfaulted one the first test
that fails decides the one fault raised, and a word that fails none raises none. -/
def Obligations.FirstFailingTestDecides : Prop :=
  ∀ (s : State) (w : CommandWord),
    (s.fault = true → transact w s = .next { s with rsp := some (0xF#4 ++ s.fcode.setWidth 32) }) ∧
    (s.fault = false → ∀ code, firstFault s w = some code →
      transact w s = .next
        { s with fault := true, fcode := code.code, rsp := some (0xF#4 ++ (code.code.setWidth 32 : Word)) }) ∧
    (s.fault = false → firstFault s w = none → ∃ t, transact w s = .next t ∧ t.fault = false)

/-- `COUNT_RANGE` (60_exceptions.md R188): raised by RDTAB, ADVANCE and SEQINIT when the count is above 32, before any other
test; never raised by them when it is at most 32. -/
def Obligations.CountRangeFaults : Prop :=
  ∀ (s : State) (k : Nat) (v : Word), s.fault = false → ∀ i ∈ [Instr.rdtab k, Instr.advance k v, Instr.seqinit v k],
    (32 < k → exec i s = .next { s with fault := true, fcode := 3#4, rsp := some 0xF00000003#36 }) ∧
    (k ≤ 32 → ∀ t, exec i s = .next t → t.fault = true → t.fcode ≠ 3#4)

/-- `BAD_CID` (60_exceptions.md R189): raised by CURNEW, NEXT and RDSTAT when `CID >= NCUR`, before the test of `SV`; with
`NCUR = 16` it can never happen. -/
def Obligations.BadCidFaults : Prop :=
  (∀ (s : State) (c : Nat), s.fault = false → s.ncur ≤ c →
    ∀ i ∈ [Instr.curnew c, Instr.next c, Instr.rdstat c],
      exec i s = .next { s with fault := true, fcode := 4#4, rsp := some 0xF00000004#36 }) ∧
  (∀ (s t : State) (i : Instr), s.fault = false → s.ncur = 16 → i.wf = true → exec i s = .next t →
    t.fault = true → t.fcode ≠ 4#4)

/-- `NO_TABLE` (60_exceptions.md R190): raised by RDTAB and ADVANCE when `TV = 0` and the count is in range. -/
def Obligations.NoTableFaults : Prop :=
  ∀ (s : State) (k : Nat) (v : Word), s.fault = false → k ≤ 32 → s.tv = false →
    ∀ i ∈ [Instr.rdtab k, Instr.advance k v],
      exec i s = .next { s with fault := true, fcode := 5#4, rsp := some 0xF00000005#36 }

/-- `NO_SEQ` (60_exceptions.md R191): raised by CURNEW and NEXT when `SV = 0` and the slot exists. -/
def Obligations.NoSequenceFaults : Prop :=
  ∀ (s : State) (c : Nat), s.fault = false → c < s.ncur → s.sv = false →
    ∀ i ∈ [Instr.curnew c, Instr.next c],
      exec i s = .next { s with fault := true, fcode := 6#4, rsp := some 0xF00000006#36 }

/-- `PRECOND` (60_exceptions.md R192): with `DEBUG_CHECK` true, ADVANCE with `popcount(current) != k` faults; no other command, no
other value and no block with `DEBUG_CHECK` false records code 7. -/
def Obligations.PrecondFaults : Prop :=
  (∀ (s : State) (k : Nat) (current : Word), s.fault = false → k ≤ 32 → s.tv = true → s.debugCheck = true →
    popcount current ≠ k →
      exec (.advance k current) s = .next { s with fault := true, fcode := 7#4, rsp := some 0xF00000007#36 }) ∧
  (∀ (s t : State) (i : Instr), s.fault = false → exec i s = .next t → t.fault = true → t.fcode = 7#4 →
    s.debugCheck = true ∧ ∃ k current, i = .advance k current ∧ popcount current ≠ k)

/-! ## BUILD and RDTAB -/

/-- BUILD (40_table_builder.md R101): the word `OP = 1`, `DATA = mask`, all other fields zero, is BUILD; a faulted block answers with
its code; otherwise all 33 entries become `bases(mask)`, `TV` is set, the sequence is destroyed, every cursor is `NEW` and the answer
is `OK 0`; the rest is unchanged (10_state.md R36). That the bits of every `CUR[c]` stay is the model's choice (log 13): `CUR[c]` then
holds no value (R29). -/
def Obligations.BuildResult : Prop :=
  ∀ (s : State) (mask : Word),
    decode (1#4 ++ (0#4 ++ (0#2 ++ (0#6 ++ mask)))) = .ok (.build mask) ∧
    (s.fault = true → exec (.build mask) s = .next { s with rsp := some (0xF#4 ++ s.fcode.setWidth 32) }) ∧
    (s.fault = false →
      exec (.build mask) s = .next
        { s with
          table := bases mask, tv := true, sv := false, kreg := 0#6, empty := false
          cursors := s.cursors.map fun x => { x with cst := .new }
          rsp := some 0x000000000#36 })

/-- What the builder builds (40_table_builder.md R102): after BUILD and after SEQINIT with a count in range, entry `j` is the OR of
the `j` lowest set bits of the mask, entry 0 is 0, entry `popcount(mask)` and every later one is the mask, no entry exceeds the mask
bitwise, and each entry is a superset of the one before. -/
def Obligations.BuiltTableIsTableOfMask : Prop :=
  ∀ (s : State) (mask : Word) (i : Instr), s.fault = false →
    (i = .build mask ∨ ∃ k, k ≤ 32 ∧ i = .seqinit mask k) →
      ∃ t, exec i s = .next t ∧ IsTableOf t.table mask ∧ readTable t.table 0 = 0#32 ∧
        (∀ j, popcount mask ≤ j → j ≤ 32 → readTable t.table j = mask) ∧
        (∀ j, j ≤ 32 → SubsetOf (readTable t.table j) mask) ∧
        ∀ j, j < 32 → SubsetOf (readTable t.table j) (readTable t.table (j + 1))

/-- The consequences of the table invariant (10_state.md R23): every entry is a subset of the mask and of the next entry, entry `j`
has `min(j, popcount(mask))` bits, and is the smallest subset of the mask with `j` bits. -/
def Obligations.TableEntriesAreSmallestSubsets : Prop :=
  ∀ s : State, s.Inv → s.tv = true → ∀ j, j ≤ 32 →
    SubsetOf (readTable s.table j) s.mask ∧
    (j < 32 → SubsetOf (readTable s.table j) (readTable s.table (j + 1))) ∧
    popcount (readTable s.table j) = min j (popcount s.mask) ∧
    (j ≤ popcount s.mask → IsLeast s.mask j (readTable s.table j))

/-- RDTAB (40_table_builder.md R105): its word, its four outcomes in order, no state changed but by a fault; and its corner cases:
index 0 answers 0, an index of at least `popcount(mask)` answers the mask. -/
def Obligations.RdtabResult : Prop :=
  ∀ (s : State) (j : Nat),
    (j < 64 → decode (2#4 ++ (0#4 ++ (0#2 ++ (BitVec.ofNat 6 j ++ 0#32)))) = .ok (.rdtab j)) ∧
    (s.fault = true → exec (.rdtab j) s = .next { s with rsp := some (0xF#4 ++ s.fcode.setWidth 32) }) ∧
    (s.fault = false → 32 < j →
      exec (.rdtab j) s = .next { s with fault := true, fcode := 3#4, rsp := some 0xF00000003#36 }) ∧
    (s.fault = false → j ≤ 32 → s.tv = false →
      exec (.rdtab j) s = .next { s with fault := true, fcode := 5#4, rsp := some 0xF00000005#36 }) ∧
    (s.fault = false → ∀ h : j < 33, s.tv = true →
      exec (.rdtab j) s = .next { s with rsp := some (0x0#4 ++ s.table[j]) } ∧
        (s.Inv → (j = 0 → s.table[j] = 0#32) ∧ (popcount s.mask ≤ j → s.table[j] = s.mask)))

/-! ## ADVANCE -/

/-- ADVANCE (41_advance.md R120): its word and its six outcomes in order; in contract the answer is OK with the advance function's
value and no state changes, out of contract OK with some value. -/
def Obligations.AdvanceResult : Prop :=
  ∀ (s : State) (k : Nat) (current : Word),
    (k < 64 → decode (3#4 ++ (0#4 ++ (0#2 ++ (BitVec.ofNat 6 k ++ current)))) = .ok (.advance k current)) ∧
    (s.fault = true → exec (.advance k current) s = .next { s with rsp := some (0xF#4 ++ s.fcode.setWidth 32) }) ∧
    (s.fault = false → 32 < k →
      exec (.advance k current) s = .next { s with fault := true, fcode := 3#4, rsp := some 0xF00000003#36 }) ∧
    (s.fault = false → k ≤ 32 → s.tv = false →
      exec (.advance k current) s = .next { s with fault := true, fcode := 5#4, rsp := some 0xF00000005#36 }) ∧
    (s.fault = false → k ≤ 32 → s.tv = true → s.debugCheck = true → popcount current ≠ k →
      exec (.advance k current) s = .next { s with fault := true, fcode := 7#4, rsp := some 0xF00000007#36 }) ∧
    (s.fault = false → k ≤ 32 → s.tv = true → SubsetOf current (readTable s.table 32) → popcount current = k →
      exec (.advance k current) s = .next { s with rsp := some (0x0#4 ++ adv s.table k current) }) ∧
    (s.fault = false → k ≤ 32 → s.tv = true → (s.debugCheck = false ∨ popcount current = k) →
      ¬ (SubsetOf current (readTable s.table 32) ∧ popcount current = k) →
      ∃ (v : Word) (t : State), exec (.advance k current) s = .next t ∧ t.rsp = some (0x0#4 ++ v) ∧ SameRegisters s t)

/-- ADVANCE in contract computes the five steps of 41_advance.md R122: with `m = T[32]`, `t = current | (current - 1) | ~m`,
`raw = t + 1`, `next_upper = raw & m` and `need = k - popcount(next_upper)`, which does not borrow, the answer is
`next_upper | T[need]`; no state changes. -/
def Obligations.AdvanceComputesFormula : Prop :=
  ∀ (s : State) (k : Nat) (current : Word), s.fault = false → k ≤ 32 → s.tv = true →
    SubsetOf current (readTable s.table 32) → popcount current = k →
      let m := readTable s.table 32
      let upper := ((current ||| (current - 1#32) ||| ~~~m) + 1#32) &&& m
      popcount upper ≤ k ∧
        exec (.advance k current) s = .next
          { s with rsp := some (0x0#4 ++ (upper ||| readTable s.table (k - popcount upper) : Word)) }

/-- What ADVANCE answers in contract (41_advance.md R126): the least element of `S(T[32], k)` greater than `current`, or, when
`current` is the greatest, the least element of all, which is `T[k]`; no state changes. -/
def Obligations.AdvanceAnswersNextSubset : Prop :=
  ∀ (s : State) (k : Nat) (current : Word), s.Inv → s.fault = false → s.tv = true →
    KSubset s.mask k current →
      ∃ v, exec (.advance k current) s = .next { s with rsp := some (0x0#4 ++ v) } ∧
        (IsNextAfter s.mask k current v ∨
          (IsGreatest s.mask k current ∧ IsLeast s.mask k v ∧ v = readTable s.table k))

/-- The cycle of ADVANCE (41_advance.md R126): the `C(popcount(m), k)` elements of `S(m, k)`, `m` the mask of the table, listed in
increasing order begin with `T[k]`, and ADVANCE answers each with the next one and the last with the first. -/
def Obligations.AdvanceCyclesThroughAllSubsets : Prop :=
  ∀ (s : State) (k : Nat), s.Inv → s.fault = false → s.tv = true → k ≤ popcount s.mask →
    ∃ vs, EnumeratesSubsets s.mask k vs ∧ vs.head? = some (readTable s.table k) ∧
      ∀ (n : Nat) (u : Word), vs[n]? = some u →
        ∃ v, vs[(n + 1) % vs.length]? = some v ∧
          exec (.advance k u) s = .next { s with rsp := some (0x0#4 ++ v) }

/-- ADVANCE out of contract and not caught by the debug check (41_advance.md R128) answers OK with some 32-bit value, nothing is said
of which, and changes no state of the block: `T`, every cursor and every flag are as before. -/
def Obligations.AdvanceOutOfContractAnswersSomething : Prop :=
  ∀ (s : State) (k : Nat) (current : Word), s.fault = false → k ≤ 32 → s.tv = true →
    ¬ (SubsetOf current (readTable s.table 32) ∧ popcount current = k) →
    (s.debugCheck = false ∨ popcount current = k) →
      ∃ (v : Word) (t : State), exec (.advance k current) s = .next t ∧ t.rsp = some (0x0#4 ++ v) ∧ SameRegisters s t

/-! ## SEQINIT, CURNEW, NEXT -/

/-- SEQINIT (42_sequence.md R141): its word; a faulted block answers with its code; a count above 32 faults with nothing written;
otherwise the table of the mask, `TV` and `SV` set, `KREG <- k`, `EMPTY` set exactly when `k > popcount(mask)`, every cursor `NEW`
and the answer `OK 0`; the rest is unchanged (10_state.md R36). That the bits of every `CUR[c]` stay is the model's choice (log 13):
`CUR[c]` then holds no value (R29). -/
def Obligations.SeqinitResult : Prop :=
  ∀ (s : State) (mask : Word) (k : Nat),
    (k < 64 → decode (4#4 ++ (0#4 ++ (0#2 ++ (BitVec.ofNat 6 k ++ mask)))) = .ok (.seqinit mask k)) ∧
    (s.fault = true → exec (.seqinit mask k) s = .next { s with rsp := some (0xF#4 ++ s.fcode.setWidth 32) }) ∧
    (s.fault = false → 32 < k →
      exec (.seqinit mask k) s = .next { s with fault := true, fcode := 3#4, rsp := some 0xF00000003#36 }) ∧
    (s.fault = false → k ≤ 32 →
      exec (.seqinit mask k) s = .next
        { s with
          table := bases mask, tv := true, sv := true, kreg := BitVec.ofNat 6 k
          empty := decide (popcount mask < k)
          cursors := s.cursors.map fun x => { x with cst := .new }
          rsp := some 0x000000000#36 })

/-- CURNEW (42_sequence.md R144): its word; a faulted block answers with its code; `BAD_CID`, then `NO_SEQ`; otherwise
`CST[c] <- NEW` and the answer is `OK 0`; `CUR[c]`, every other slot and all else are unchanged. -/
def Obligations.CurnewResult : Prop :=
  ∀ (s : State) (c : Nat),
    (c < 16 → decode (5#4 ++ (BitVec.ofNat 4 c ++ (0#2 ++ (0#6 ++ 0#32)))) = .ok (.curnew c)) ∧
    (s.fault = true → exec (.curnew c) s = .next { s with rsp := some (0xF#4 ++ s.fcode.setWidth 32) }) ∧
    (s.fault = false → s.ncur ≤ c →
      exec (.curnew c) s = .next { s with fault := true, fcode := 4#4, rsp := some 0xF00000004#36 }) ∧
    (s.fault = false → c < s.ncur → s.sv = false →
      exec (.curnew c) s = .next { s with fault := true, fcode := 6#4, rsp := some 0xF00000006#36 }) ∧
    (s.fault = false → s.sv = true → ∀ x : Cursor, s.cursors[c]? = some x →
      exec (.curnew c) s = .next
        { s with cursors := s.cursors.set c { x with cst := .new }, rsp := some 0x000000000#36 })

/-- NEXT (42_sequence.md R146), arm by arm: its word; a faulted block answers with its code; `BAD_CID`, then `NO_SEQ`; END and `DONE`
on an empty sequence; the seed on a new cursor; the candidate on an active one if it is greater (unsigned), otherwise END and `DONE`;
END and no change on a cursor that is done. Two things are the model's: where the cursor becomes `DONE` the bits of `CUR[c]` stay
(log 13; it then holds no value, 10_state.md R29), and on an active cursor out of contract, which `State.Inv` rules out, the candidate
is the model's total `adv` (log 11). -/
def Obligations.NextResult : Prop :=
  ∀ (s : State) (c : Nat),
    (c < 16 → decode (6#4 ++ (BitVec.ofNat 4 c ++ (0#2 ++ (0#6 ++ 0#32)))) = .ok (.next c)) ∧
    (s.fault = true → exec (.next c) s = .next { s with rsp := some (0xF#4 ++ s.fcode.setWidth 32) }) ∧
    (s.fault = false → s.ncur ≤ c →
      exec (.next c) s = .next { s with fault := true, fcode := 4#4, rsp := some 0xF00000004#36 }) ∧
    (s.fault = false → c < s.ncur → s.sv = false →
      exec (.next c) s = .next { s with fault := true, fcode := 6#4, rsp := some 0xF00000006#36 }) ∧
    (s.fault = false → s.sv = true → ∀ x : Cursor, s.cursors[c]? = some x →
      exec (.next c) s = .next (
        if s.empty = true then
          { s with cursors := s.cursors.set c { x with cst := .done }, rsp := some 0x100000000#36 }
        else match x.cst with
          | .new =>
            { s with
              cursors := s.cursors.set c { cst := .active, cur := readTable s.table s.kreg.toNat }
              rsp := some (0x0#4 ++ readTable s.table s.kreg.toNat) }
          | .active =>
            if x.cur < adv s.table s.kreg.toNat x.cur then
              { s with
                cursors := s.cursors.set c { cst := .active, cur := adv s.table s.kreg.toNat x.cur }
                rsp := some (0x0#4 ++ adv s.table s.kreg.toNat x.cur) }
            else
              { s with cursors := s.cursors.set c { x with cst := .done }, rsp := some 0x100000000#36 }
          | .done => { s with rsp := some 0x100000000#36 }))

/-- What NEXT yields on a sequence that is not empty (42_sequence.md R143, R147, R148): a new cursor the least element of
`S(T[32], KREG)`, an active one the next greater element after its current value, or END when that is the greatest. That the bits of
`CUR[c]` stay where END makes the cursor `DONE` is the model's choice (log 13). -/
def Obligations.NextYieldsSubsetsInOrder : Prop :=
  ∀ (s : State) (c : Nat) (x : Cursor), s.Inv → s.fault = false → s.sv = true → s.empty = false →
    s.cursors[c]? = some x →
      (x.cst = .new → ∃ v, IsLeast s.mask s.kreg.toNat v ∧
        exec (.next c) s = .next
          { s with cursors := s.cursors.set c { cst := .active, cur := v }, rsp := some (0x0#4 ++ v) }) ∧
      (x.cst = .active →
        (∃ v, IsNextAfter s.mask s.kreg.toNat x.cur v ∧
          exec (.next c) s = .next
            { s with cursors := s.cursors.set c { cst := .active, cur := v }, rsp := some (0x0#4 ++ v) }) ∨
        (IsGreatest s.mask s.kreg.toNat x.cur ∧
          exec (.next c) s = .next
            { s with cursors := s.cursors.set c { x with cst := .done }, rsp := some 0x100000000#36 }))

/-- The traversal (42_sequence.md R148): with a sequence and a cursor that is `NEW`, repeated NEXT on that cursor answers OK with each
element of `S(T[32], KREG)` once, in strictly increasing order, `C(popcount(T[32]), KREG)` of them, and then END for ever; the first
value is `T[KREG]` and the last the OR of the `KREG` highest set bits of the mask. -/
def Obligations.TraversalYieldsAllSubsets : Prop :=
  ∀ (s : State) (c : Nat) (x : Cursor), s.Inv → s.fault = false → s.sv = true → s.cursors[c]? = some x → x.cst = .new →
    ∃ vs, EnumeratesSubsets s.mask s.kreg.toNat vs ∧
      (∀ v, vs.head? = some v → v = readTable s.table s.kreg.toNat) ∧
      (∀ v, vs.getLast? = some v → IsHighestBits s.mask s.kreg.toNat v) ∧
      ∀ extra, ∃ t, run s (List.replicate (vs.length + extra) (encode (.next c))) =
        some (t, vs.map okWord ++ List.replicate extra endWord)

/-- Traversals under interleaving (42_sequence.md R148, R150; 20_memory.md R57): from a new cursor, whatever commands that leave its
slot alone (NEXT and CURNEW on other slots, ADVANCE, RDTAB, RDSTAT) are interleaved with NEXT on it, as long as none faults, the
answers to its NEXT commands are the elements of `S(T[32], KREG)` in increasing order and then END. -/
def Obligations.InterleavedTraversalIsUnaffected : Prop :=
  ∀ (s t : State) (c : Nat) (x : Cursor) (is : List Instr) (rs : List ResponseWord),
    s.Inv → s.fault = false → s.sv = true → s.cursors[c]? = some x → x.cst = .new →
    (∀ i ∈ is, i.wf = true ∧ (i = .next c ∨ LeavesSlot c i)) →
    run s (is.map encode) = some (t, rs) → t.fault = false →
      ∃ vs, EnumeratesSubsets s.mask s.kreg.toNat vs ∧
        answersTo (.next c) is rs = (vs.map okWord ++ List.replicate is.length endWord).take (is.count (.next c))

/-! ## RDSTAT -/

/-- RDSTAT (43_status.md R170) and the status word (R171), field by field: its word; a faulted block answers with its code;
`BAD_CID`; otherwise OK with the status word and no state changed; neither a table nor a sequence is needed. -/
def Obligations.RdstatResult : Prop :=
  ∀ (s : State) (c : Nat),
    (c < 16 → decode (7#4 ++ (BitVec.ofNat 4 c ++ (0#2 ++ (0#6 ++ 0#32)))) = .ok (.rdstat c)) ∧
    (s.fault = true → exec (.rdstat c) s = .next { s with rsp := some (0xF#4 ++ s.fcode.setWidth 32) }) ∧
    (s.fault = false → s.ncur ≤ c →
      exec (.rdstat c) s = .next { s with fault := true, fcode := 4#4, rsp := some 0xF00000004#36 }) ∧
    (s.fault = false → ∀ x : Cursor, s.cursors[c]? = some x →
      ∃ v : Word, exec (.rdstat c) s = .next { s with rsp := some (0x0#4 ++ v) } ∧
        v.getLsbD 0 = s.tv ∧ v.getLsbD 1 = s.sv ∧ v.getLsbD 2 = s.empty ∧ v.extractLsb' 3 5 = 0#5 ∧
        v.extractLsb' 8 6 = s.kreg ∧ v.extractLsb' 14 2 = 0#2 ∧
        v.extractLsb' 16 2 = (match x.cst with | .new => 0#2 | .active => 1#2 | .done => 2#2) ∧
        v.extractLsb' 18 14 = 0#14)

/-- While no sequence exists the status word shows `TV` alone (43_status.md R171): `EMPTY`, `KREG` and `CST` read 0. -/
def Obligations.StatusWithoutSequenceShowsTableValidOnly : Prop :=
  ∀ (s : State) (c : Nat), s.Inv → s.fault = false → s.sv = false → c < s.ncur →
    exec (.rdstat c) s = .next
      { s with rsp := some (if s.tv = true then 0x000000001#36 else 0x000000000#36) }

/-! ## Frames and whole-machine rules -/

/-- The frame of RDTAB, ADVANCE and RDSTAT (10_state.md R36): whatever they answer, they write no state of the block but `FAULT` and
`FCODE` when they raise a fault. The counter of draws is the model's (log 4), and only an ADVANCE out of contract moves it. -/
def Obligations.ReadingCommandsFrame : Prop :=
  ∀ (i : Instr) (s t : State),
    ((∃ j, i = .rdtab j) ∨ (∃ k v, i = .advance k v) ∨ ∃ c, i = .rdstat c) → exec i s = .next t →
      { t with fault := s.fault, fcode := s.fcode, rsp := s.rsp, draws := s.draws } = s ∧
      ((t.fault = s.fault ∧ t.fcode = s.fcode) ∨ (s.fault = false ∧ t.fault = true)) ∧
      (t.draws = s.draws ∨
        ∃ k v, i = .advance k v ∧ ¬ (SubsetOf v (readTable s.table 32) ∧ popcount v = k))

/-- The frame of CURNEW and NEXT (10_state.md R27, R36): they leave the table, the flags, `KREG`, every other slot, the
configuration and the host's side as they were, and `FAULT` and `FCODE` too unless they raise a fault; CURNEW leaves every `CUR`
(42_sequence.md R144). The configuration, the host's list and the counter of draws in the state are the model's form (logs 1, 5, 4). -/
def Obligations.CursorCommandsFrame : Prop :=
  ∀ (c : Nat) (i : Instr) (s t : State), (i = .curnew c ∨ i = .next c) → exec i s = .next t →
    t.table = s.table ∧ t.tv = s.tv ∧ t.sv = s.sv ∧ t.kreg = s.kreg ∧ t.empty = s.empty ∧
    t.ncur = s.ncur ∧ t.debugCheck = s.debugCheck ∧ t.inputs = s.inputs ∧ t.draws = s.draws ∧
    ((t.fault = s.fault ∧ t.fcode = s.fcode) ∨ (s.fault = false ∧ t.fault = true)) ∧
    (∀ d, d ≠ c → t.cursors[d]? = s.cursors[d]?) ∧
    (i = .curnew c → t.cursors.map (fun x => x.cur) = s.cursors.map (fun x => x.cur))

/-- The frame of BUILD and SEQINIT (10_state.md R36): they leave the configuration and the host's side as they were, and `FAULT` and
`FCODE` too unless SEQINIT, and it alone, raises a fault, in which case the table and the flags stay as well (42_sequence.md R142 f).
That they leave the bits of every `CUR[c]` is the model's choice (log 13): it then holds no value (R29). The configuration, the host's
list and the counter of draws in the state are the model's form (logs 1, 5, 4). -/
def Obligations.BuildingCommandsFrame : Prop :=
  ∀ (mask : Word) (i : Instr) (s t : State), (i = .build mask ∨ ∃ k, i = .seqinit mask k) → exec i s = .next t →
    t.cursors.map (fun x => x.cur) = s.cursors.map (fun x => x.cur) ∧
    t.debugCheck = s.debugCheck ∧ t.inputs = s.inputs ∧ t.draws = s.draws ∧
    ((t.fault = s.fault ∧ t.fcode = s.fcode) ∨
      ((∃ k, i = .seqinit mask k) ∧ s.fault = false ∧ t.fault = true ∧ t.table = s.table ∧ t.tv = s.tv ∧ t.sv = s.sv ∧
        t.kreg = s.kreg ∧ t.empty = s.empty ∧ t.cursors = s.cursors))

/-- The table is read-only between the commands that build it (10_state.md R24): a step other than a reset changes the table only by
running BUILD or SEQINIT, and then writes all 33 entries of `bases(mask)`. -/
def Obligations.OnlyBuildersWriteTable : Prop :=
  ∀ s t : State, step s = .next t → resetsNow s = false → t.table ≠ s.table →
    ∃ w rest mask, s.inputs = .command w :: rest ∧ t.table = bases mask ∧
      (decode w = .ok (.build mask) ∨ ∃ k, decode w = .ok (.seqinit mask k))

/-- END is the answer of NEXT alone, always with value 0 (30_encoding.md R81, 42_sequence.md R152). -/
def Obligations.OnlyNextAnswersEnd : Prop :=
  ∀ (i : Instr) (s t : State) (v : Word), exec i s = .next t → t.rsp = some (0x1#4 ++ v) →
    v = 0#32 ∧ s.fault = false ∧ ∃ c, i = .next c

/-- Repeating BUILD, RDTAB, SEQINIT, CURNEW or RDSTAT at once gives the same answer and the same state
(20_memory.md R54, 40_table_builder.md R101, 42_sequence.md R144). -/
def Obligations.RepeatedCommandChangesNothing : Prop :=
  ∀ (i : Instr) (s t : State),
    ((∃ m, i = .build m) ∨ (∃ j, i = .rdtab j) ∨ (∃ m k, i = .seqinit m k) ∨ (∃ c, i = .curnew c) ∨
      ∃ c, i = .rdstat c) →
    exec i s = .next t → exec i t = .next t

/-- No result depends on what `T` holds while `TV = 0` (10_state.md R25): replacing the table changes neither the answer nor any
other part of the next state. -/
def Obligations.StaleTableIsNeverObserved : Prop :=
  ∀ (i : Instr) (s t : State) (other : Table), s.tv = false → s.sv = false → exec i s = .next t →
    ∃ u, exec i { s with table := other } = .next u ∧ { u with table := t.table } = t

/-- No result depends on `CUR[c]` while `CST[c]` is not `ACTIVE` (10_state.md R29): replacing it changes neither the answer nor any
observable part of the next state. For an ADVANCE out of contract this compares two free answers; that they are equal is the model's
(log 4: the free value is selected by the count of draws, the same in both), a block may answer anything. -/
def Obligations.StaleCursorValueIsNeverObserved : Prop :=
  ∀ (v : Word) (i : Instr) (s t : State), exec i s = .next t →
    ∃ u, exec i (scrub v s) = .next u ∧ u.rsp = t.rsp ∧ scrub v u = scrub v t

/-- Independence of cursors (42_sequence.md R150): after a command that leaves slot `c` alone, NEXT on slot `c` answers what it would
have answered before, and leaves the slot in the same state. -/
def Obligations.CursorsAreIndependent : Prop :=
  ∀ (c : Nat) (i : Instr) (s t : State), LeavesSlot c i → exec i s = .next t → t.fault = false →
    ∃ u v, exec (.next c) s = .next u ∧ exec (.next c) t = .next v ∧
      v.rsp = u.rsp ∧ v.cursors[c]? = u.cursors[c]?
end

