-- ==== Sys2Proof/Laws/Bits.lean ====
section
/-! SUPPORT. The word primitives of 00_scope.md R10, bit by bit: the carry chain, the lowest set bit, population counts, subsets and the
unsigned order. -/

namespace Sys2Proof.Machine

/-- The carry chain, bit by bit: adding 1 flips a bit exactly when all lower bits are 1 (41_advance.md R123). -/
theorem getLsbD_add_one (x : Word) (b : Nat) (hb : b < 32) :
    (x + 1#32).getLsbD b = (x.getLsbD b ^^ decide (∀ j, j < b → x.getLsbD j = true)) := by
  have hc : ∀ n, n ≤ 32 → 0 < n → BitVec.carry n x 1#32 false = decide (∀ j, j < n → x.getLsbD j = true) := by
    intro n hn h0
    induction n with
    | zero => omega
    | succ n ih =>
      rw [BitVec.carry_succ]
      rcases Nat.eq_zero_or_pos n with rfl | hp
      · simp [Bool.atLeastTwo]
      · rw [ih (by omega) hp]
        have h1 : (1#32).getLsbD n = false := by
          rw [BitVec.getLsbD_one]; simp; omega
        rw [h1, Bool.eq_iff_iff]
        simp [Bool.atLeastTwo]
        constructor
        · rintro ⟨h1, h2⟩ j hj
          rcases Nat.lt_or_eq_of_le hj with h | rfl
          · exact h2 j h
          · exact h1
        · intro h
          exact ⟨h n (by omega), fun j hj => h j (by omega)⟩
  rw [BitVec.getLsbD_add hb]
  rcases Nat.eq_zero_or_pos b with rfl | hp
  · simp
  · rw [hc b (by omega) hp]
    have h1 : (1#32).getLsbD b = false := by
      rw [BitVec.getLsbD_one]; simp; omega
    simp [h1]
/-- Subtracting 1 modulo 2^32 flips a bit exactly when all lower bits are 0. -/
theorem getLsbD_sub_one (x : Word) (b : Nat) (hb : b < 32) :
    (x - 1#32).getLsbD b = (x.getLsbD b ^^ decide (∀ j, j < b → x.getLsbD j = false)) := by
  have : x - 1#32 = ~~~(~~~x + 1#32) := by
    rw [BitVec.not_eq_neg_add, BitVec.not_eq_neg_add]
    grind
  rw [this, BitVec.getLsbD_not, getLsbD_add_one _ _ hb]
  have h2 : (∀ j, j < b → (~~~x).getLsbD j = true) ↔ (∀ j, j < b → x.getLsbD j = false) := by
    refine forall_congr' fun j => forall_congr' fun hj => ?_
    rw [BitVec.getLsbD_not]; simp; omega
  rw [decide_eq_decide.mpr h2, BitVec.getLsbD_not]
  cases h : x.getLsbD b <;> cases decide (∀ j, j < b → x.getLsbD j = false) <;> simp [hb]

/-- `lsb` keeps only the lowest set bit (00_scope.md R10). -/
theorem getLsbD_lsb (x : Word) (b : Nat) (hb : b < 32) :
    (lsb x).getLsbD b = (x.getLsbD b && decide (∀ j, j < b → x.getLsbD j = false)) := by
  have : 0#32 - x = ~~~ (x - 1#32) := by
    rw [BitVec.not_eq_neg_add]; grind
  rw [lsb, this, BitVec.getLsbD_and, BitVec.getLsbD_not, getLsbD_sub_one _ _ hb]
  cases h : x.getLsbD b <;> cases decide (∀ j, j < b → x.getLsbD j = false) <;> simp [hb]

theorem popcountBelow_succ (a : Word) (n : Nat) :
    popcountBelow a (n + 1) = popcountBelow a n + if a.getLsbD n then 1 else 0 := by
  simp only [popcountBelow, List.range_succ, List.countP_append, List.countP_singleton]

theorem popcountBelow_mono (a : Word) {m n : Nat} (h : m ≤ n) : popcountBelow a m ≤ popcountBelow a n := by
  induction n, h using Nat.le_induction with
  | base => exact le_rfl
  | succ n _ ih => rw [popcountBelow_succ]; omega

theorem popcountBelow_lt (a : Word) {m n : Nat} (h : m < n) (hm : a.getLsbD m = true) :
    popcountBelow a m < popcountBelow a n := by
  have := popcountBelow_mono a (Nat.succ_le_of_lt h)
  rw [popcountBelow_succ, if_pos hm] at this
  omega

theorem popcountBelow_le (a : Word) (n : Nat) : popcountBelow a n ≤ n := by
  simpa [popcountBelow] using List.countP_le_length (l := List.range n) (p := fun b => a.getLsbD b)

/-- Every rank below the count is the rank of a set bit. -/
theorem exists_bit_of_lt_popcountBelow (a : Word) {i n : Nat} (h : i < popcountBelow a n) :
    ∃ j, j < n ∧ a.getLsbD j = true ∧ popcountBelow a j = i := by
  induction n with
  | zero => simp [popcountBelow] at h
  | succ n ih =>
    rw [popcountBelow_succ] at h
    by_cases hn : i < popcountBelow a n
    · obtain ⟨j, hj, h2⟩ := ih hn
      exact ⟨j, by omega, h2⟩
    · split at h
      · exact ⟨n, by omega, ‹_›, by omega⟩
      · omega

/-- Subset, bit by bit. -/
theorem subsetOf_iff (a b : Word) : SubsetOf a b ↔ ∀ i, i < 32 → a.getLsbD i = true → b.getLsbD i = true := by
  constructor
  · intro h i hi ha
    have := congrArg (fun w => w.getLsbD i) h
    simp only [BitVec.getLsbD_and, BitVec.getLsbD_not, ha, hi] at this
    simpa using this
  · intro h
    apply BitVec.eq_of_getLsbD_eq
    intro i hi
    rw [BitVec.getLsbD_and, BitVec.getLsbD_not]
    cases ha : a.getLsbD i
    · simp
    · simp [hi, h i hi ha]

/-- Unsigned order is decided at the highest differing bit. -/
theorem lt_iff_exists_bit (a b : Word) :
    a < b ↔ ∃ d, d < 32 ∧ a.getLsbD d = false ∧ b.getLsbD d = true ∧
      ∀ j, d < j → j < 32 → a.getLsbD j = b.getLsbD j := by
  have back : ∀ a b : Word, (∃ d, d < 32 ∧ a.getLsbD d = false ∧ b.getLsbD d = true ∧
      ∀ j, d < j → j < 32 → a.getLsbD j = b.getLsbD j) → a < b := by
    rintro a b ⟨d, hd, h0, h1, hj⟩
    rw [BitVec.lt_def]
    refine Nat.lt_of_testBit d (by rw [BitVec.testBit_toNat]; exact h0) (by rw [BitVec.testBit_toNat]; exact h1) fun j h => ?_
    rw [BitVec.testBit_toNat, BitVec.testBit_toNat]
    by_cases hj32 : j < 32
    · exact hj j h hj32
    · rw [BitVec.getLsbD_of_ge _ _ (by omega), BitVec.getLsbD_of_ge _ _ (by omega)]
  refine ⟨fun h => ?_, back a b⟩
  have key : ∀ n, n ≤ 32 → (∃ d, d < n ∧ a.getLsbD d ≠ b.getLsbD d ∧ ∀ j, d < j → j < n → a.getLsbD j = b.getLsbD j) ∨
      ∀ j, j < n → a.getLsbD j = b.getLsbD j := by
    intro n hn
    induction n with
    | zero => right; intro j hj; omega
    | succ n ih =>
      by_cases hb : a.getLsbD n = b.getLsbD n
      · rcases ih (by omega) with ⟨d, hd, hne, hj⟩ | hall
        · left
          refine ⟨d, by omega, hne, fun j h1 h2 => ?_⟩
          rcases Nat.lt_or_eq_of_le (Nat.le_of_lt_succ h2) with h | rfl
          · exact hj j h1 h
          · exact hb
        · right
          intro j h2
          rcases Nat.lt_or_eq_of_le (Nat.le_of_lt_succ h2) with h | rfl
          · exact hall j h
          · exact hb
      · left
        exact ⟨n, by omega, hb, fun j h1 h2 => by omega⟩
  rcases key 32 le_rfl with ⟨d, hd, hne, hj⟩ | hall
  · cases ha : a.getLsbD d
    · refine ⟨d, hd, ha, ?_, hj⟩
      cases hb : b.getLsbD d
      · exact absurd (ha.trans hb.symm) hne
      · rfl
    · have hb : b.getLsbD d = false := by
        cases hb : b.getLsbD d
        · rfl
        · exact absurd (ha.trans hb.symm) hne
      have := back b a ⟨d, hd, hb, ha, fun j h1 h2 => (hj j h1 h2).symm⟩
      rw [BitVec.lt_def] at h this
      omega
  · have := BitVec.eq_of_getLsbD_eq (x := a) (y := b) (fun i hi => hall i hi)
    subst this
    exact absurd h (by simp)

theorem popcountBelow_congr {a b : Word} {n : Nat} (h : ∀ j, j < n → a.getLsbD j = b.getLsbD j) :
    popcountBelow a n = popcountBelow b n := by
  induction n with
  | zero => rfl
  | succ n ih => rw [popcountBelow_succ, popcountBelow_succ, ih (fun j hj => h j (by omega)), h n (by omega)]

/-- Words that agree from `lo` up have the same number of set bits there. -/
theorem popcountBelow_diff {a b : Word} {lo hi : Nat} (hle : lo ≤ hi)
    (h : ∀ j, lo ≤ j → j < hi → a.getLsbD j = b.getLsbD j) :
    popcountBelow a hi + popcountBelow b lo = popcountBelow b hi + popcountBelow a lo := by
  induction hi, hle using Nat.le_induction with
  | base => omega
  | succ n hn ih =>
    rw [popcountBelow_succ, popcountBelow_succ, h n hn (by omega)]
    have := ih (fun j h1 h2 => h j h1 (by omega))
    omega

theorem popcountBelow_le_of_imp {a b : Word} {n : Nat} (h : ∀ j, j < n → a.getLsbD j = true → b.getLsbD j = true) :
    popcountBelow a n ≤ popcountBelow b n := by
  induction n with
  | zero => exact le_rfl
  | succ n ih =>
    have := ih (fun j hj => h j (by omega))
    rw [popcountBelow_succ, popcountBelow_succ]
    have := h n (by omega)
    split
    · simp_all
    · omega

/-- A subset has no more bits from `lo` up either. -/
theorem popcountBelow_sub_le_of_imp {a b : Word} {lo hi : Nat} (hle : lo < hi)
    (h : ∀ j, j < hi → a.getLsbD j = true → b.getLsbD j = true) :
    popcountBelow a hi - popcountBelow a (lo + 1) ≤ popcountBelow b hi - popcountBelow b (lo + 1) := by
  suffices popcountBelow a hi + popcountBelow b (lo + 1) ≤ popcountBelow b hi + popcountBelow a (lo + 1) by
    have := popcountBelow_mono b hle
    have := popcountBelow_mono a hle
    omega
  induction hi, hle using Nat.le_induction with
  | base => exact (Nat.add_comm _ _).le
  | succ n hn ih =>
    rw [popcountBelow_succ a n, popcountBelow_succ b n]
    have h1 := ih fun j hj => h j (by omega)
    have h2 := h n (by omega)
    cases ha : a.getLsbD n <;> cases hb : b.getLsbD n <;> simp_all <;> omega

theorem popcount_le_of_subset {c m : Word} (hc : SubsetOf c m) : popcount c ≤ popcount m :=
  popcountBelow_le_of_imp fun j hj => (subsetOf_iff c m).mp hc j hj

theorem popcount_le_32 (a : Word) : popcount a ≤ 32 := popcountBelow_le a 32

end Sys2Proof.Machine
end

