-- ==== Sys2Proof/Laws/Table.lean ====
section
/-! SUPPORT. The base table: what `bases` builds (40_table_builder.md R102) and what the entries of a base table are (10_state.md R23). -/

namespace Sys2Proof.Machine

/-- The builder's loop: with the `i` lowest set bits of `m` in the accumulator and the rest in the working copy, entry `j` of what
follows holds the `i + j` lowest set bits (40_table_builder.md R103). -/
theorem basesFrom_bit (m : Word) (n i : Nat) (acc work : Word)
    (ha : ∀ b, b < 32 → acc.getLsbD b = (m.getLsbD b && decide (popcountBelow m b < i)))
    (hw : ∀ b, b < 32 → work.getLsbD b = (m.getLsbD b && decide (i ≤ popcountBelow m b)))
    (j : Nat) (hj : j ≤ n) :
    ∀ b, b < 32 → ((basesFrom n acc work).getD j 0#32).getLsbD b
      = (m.getLsbD b && decide (popcountBelow m b < i + j)) := by
  induction n generalizing i acc work j with
  | zero => obtain rfl : j = 0 := by omega
            simpa [basesFrom] using ha
  | succ n ih =>
    cases j with
    | zero => simpa [basesFrom] using ha
    | succ j =>
      have hl : ∀ b, b < 32 → (lsb work).getLsbD b = (m.getLsbD b && decide (popcountBelow m b = i)) := by
        intro b hb
        rw [getLsbD_lsb _ _ hb, hw b hb, Bool.eq_iff_iff]
        simp only [Bool.and_eq_true, decide_eq_true_eq]
        constructor
        · rintro ⟨⟨h1, h2⟩, h3⟩
          refine ⟨h1, ?_⟩
          by_contra hne
          obtain ⟨q, hq, hq1, hq2⟩ := exists_bit_of_lt_popcountBelow m (i := i) (n := b) (by omega)
          have := h3 q hq
          rw [hw q (by omega)] at this
          simp [hq1, hq2] at this
        · rintro ⟨h1, h2⟩
          refine ⟨⟨h1, by omega⟩, fun q hq => ?_⟩
          rw [hw q (by omega)]
          cases hm : m.getLsbD q
          · rfl
          · have := popcountBelow_lt m hq hm
            simp; omega
      have := ih (i + 1) (acc ||| lsb work) (work &&& ~~~(lsb work)) ?_ ?_ j (by omega)
      · intro b hb
        have h2 := this b hb
        simp only [basesFrom, List.getD_cons_succ]
        rw [h2]
        congr 2
        apply propext
        omega
      · intro b hb
        rw [BitVec.getLsbD_or, ha b hb, hl b hb]
        cases m.getLsbD b <;> simp
        rw [Bool.eq_iff_iff]; simp; omega
      · intro b hb
        rw [BitVec.getLsbD_and, BitVec.getLsbD_not, hw b hb, hl b hb]
        cases m.getLsbD b <;> simp
        rw [Bool.eq_iff_iff]; simp; omega

/-- `bases(mask)` is the base table of the mask (40_table_builder.md R102). -/
theorem bases_isTable (m : Word) : IsTableOf (bases m) m := by
  intro j hj b hb
  have := basesFrom_bit m 32 0 0#32 m (by simp) (by simp) j (by omega) b hb
  rw [Nat.zero_add] at this
  rw [← this]
  congr 1
  rw [List.getD_eq_getElem _ _ (by rw [basesFrom_length]; omega)]
  simp [readTable, bases, Nat.min_eq_left (show j ≤ 32 by omega)]

/-- Below `n`, the `j` lowest set bits of `m` number `min j` of those `m` has. -/
theorem popcountBelow_of_isLowestBits {m v : Word} {j : Nat} (h : IsLowestBits m j v) {n : Nat} (hn : n ≤ 32) :
    popcountBelow v n = min j (popcountBelow m n) := by
  induction n with
  | zero => simp [popcountBelow]
  | succ n ih =>
    rw [popcountBelow_succ, popcountBelow_succ, ih (by omega), h n (by omega)]
    cases m.getLsbD n
    · simp
    · by_cases h2 : popcountBelow m n < j <;> simp [h2] <;> omega

/-- A word of the same population as `x`, that below each of its own bits at which the two part holds every bit of `m`, is at
most `x`. -/
theorem le_of_packed {m v x : Word} (hx : SubsetOf x m) (hp : popcount v = popcount x)
    (hd : ∀ d, d < 32 → v.getLsbD d = true → x.getLsbD d = false →
      (∀ j, d < j → j < 32 → x.getLsbD j = v.getLsbD j) → ∀ j, j < d → m.getLsbD j = true → v.getLsbD j = true) :
    v ≤ x := by
  by_contra hlt
  rw [BitVec.not_le] at hlt
  obtain ⟨d, h32, h0, h1, hj⟩ := (lt_iff_exists_bit x v).mp hlt
  have hx' := (subsetOf_iff x m).mp hx
  have hv := hd d h32 h1 h0 hj
  have h3 : popcountBelow x d ≤ popcountBelow v d :=
    popcountBelow_le_of_imp fun j hjd hxj => hv j hjd (hx' j (by omega) hxj)
  have h4 := popcountBelow_diff (a := x) (b := v) (lo := d + 1) (hi := 32) (by omega) (fun j h1 h2 => hj j (by omega) h2)
  rw [popcountBelow_succ x d, popcountBelow_succ v d, h0, h1] at h4
  simp only [popcount] at hp
  simp at h4
  omega

/-- Entry 32 is the mask (10_state.md R22). -/
theorem mask_of_table {t : Table} {m : Word} (h : IsTableOf t m) : readTable t 32 = m := by
  apply BitVec.eq_of_getLsbD_eq
  intro b hb
  rw [h 32 (by omega) b hb]
  have := popcountBelow_le m b
  have : decide (popcountBelow m b < 32) = true := by simp; omega
  rw [this, Bool.and_true]

/-- Entry `k` is the least `k`-subset of the mask (10_state.md R23 d). -/
theorem entry_isLeast {t : Table} {m : Word} {k : Nat} (h : IsTableOf t m) (hk : k ≤ popcount m) : IsLeast m k (readTable t k) := by
  have hk32 := popcount_le_32 m
  have hl := h k (by omega)
  refine ⟨⟨?_, ?_⟩, ?_⟩
  · rw [subsetOf_iff]
    intro b hb hv
    rw [hl b hb] at hv
    exact (Bool.and_eq_true_iff.mp hv).1
  · rw [popcount, popcountBelow_of_isLowestBits hl le_rfl]
    exact Nat.min_eq_left hk
  · intro u hu
    refine le_of_packed hu.1 ?_ ?_
    · rw [hu.2, popcount, popcountBelow_of_isLowestBits hl le_rfl]
      exact Nat.min_eq_left hk
    · intro d hd hv _ _ j hj hm
      rw [hl d hd] at hv
      rw [hl j (by omega), hm]
      have := popcountBelow_lt m hj hm
      simp at hv ⊢
      omega

end Sys2Proof.Machine
end

