-- ==== Sys2Proof/Laws/Advance.lean ====
section
/-! SUPPORT. The advance function is the successor function of `S(m, k)` (41_advance.md R123 to R126). -/

namespace Sys2Proof.Machine

variable {t : Table} {m c : Word} {k : Nat}

/-- A position where the carry can stop (41_advance.md R123). -/
def Movable (m c : Word) (z : Nat) : Prop :=
  z < 32 ∧ m.getLsbD z = true ∧ c.getLsbD z = false ∧ ∃ j, j < z ∧ c.getLsbD j = true

/-- The 0 bits of `t` are the positions where the carry can stop (41_advance.md R123). -/
theorem carryWord_bit (m c : Word) (b : Nat) (hb : b < 32) :
    (c ||| (c - 1#32) ||| ~~~m).getLsbD b = false ↔ Movable m c b := by
  rw [BitVec.getLsbD_or, BitVec.getLsbD_or, BitVec.getLsbD_not, getLsbD_sub_one _ _ hb]
  unfold Movable
  cases hc : c.getLsbD b <;> cases hm : m.getLsbD b <;> simp [hb]

/-- With no such position the carry runs out of bit 31. -/
theorem nextUpper_eq_zero (h : ∀ z, ¬ Movable m c z) : nextUpper m c = 0#32 := by
  have : (c ||| (c - 1#32) ||| ~~~m) = BitVec.allOnes 32 := by
    apply BitVec.eq_of_getLsbD_eq
    intro b hb
    rw [BitVec.getLsbD_allOnes]
    cases h2 : (c ||| (c - 1#32) ||| ~~~m).getLsbD b
    · exact absurd ((carryWord_bit m c b hb).mp h2) (h b)
    · simp [hb]
  have h1 : BitVec.allOnes 32 + 1#32 = 0#32 := by decide
  rw [nextUpper, this, h1]
  exact BitVec.zero_and

/-- With `z` the lowest such position, `next_upper` is bit `z` and the bits of `current` above it (41_advance.md R123). -/
theorem nextUpper_bit (hc : SubsetOf c m) {z : Nat} (hz : Movable m c z) (hmin : ∀ y, y < z → ¬ Movable m c y)
    (b : Nat) (hb : b < 32) :
    (nextUpper m c).getLsbD b = if b < z then false else if b = z then true else c.getLsbD b := by
  have hc' := (subsetOf_iff c m).mp hc
  have tb := fun b hb => carryWord_bit m c b hb
  have low : ∀ j, j < z → (c ||| (c - 1#32) ||| ~~~m).getLsbD j = true := by
    intro j hj
    cases h : (c ||| (c - 1#32) ||| ~~~m).getLsbD j
    · exact absurd ((tb j (by have := hz.1; omega)).mp h) (hmin j hj)
    · rfl
  have atz := (tb z hz.1).mpr hz
  rw [nextUpper, BitVec.getLsbD_and, getLsbD_add_one _ _ hb]
  split
  · rw [low b ‹_›]
    have : decide (∀ j, j < b → (c ||| (c - 1#32) ||| ~~~m).getLsbD j = true) = true := by
      simp only [decide_eq_true_eq]; intro j hj; exact low j (by omega)
    rw [this]; rfl
  · split
    · subst b
      have : decide (∀ j, j < z → (c ||| (c - 1#32) ||| ~~~m).getLsbD j = true) = true := by
        simpa only [decide_eq_true_eq] using low
      rw [this, atz, hz.2.1]; rfl
    · have : decide (∀ j, j < b → (c ||| (c - 1#32) ||| ~~~m).getLsbD j = true) = false := by
        simp only [decide_eq_false_iff_not]
        intro h
        rw [h z (by omega)] at atz
        exact absurd atz (by simp)
      rw [this, Bool.xor_false]
      obtain ⟨-, -, -, j, hj, hcj⟩ := hz
      cases h : c.getLsbD b
      · cases hm : m.getLsbD b
        · simp
        · rw [(tb b hb).mpr ⟨hb, hm, h, j, by omega, hcj⟩]; simp
      · rw [hc' b hb h]
        cases h2 : (c ||| (c - 1#32) ||| ~~~m).getLsbD b
        · have := (tb b hb).mp h2
          simp [Movable, h] at this
        · simp

/-- A greater word of the same population differs from `current` first at a position where the carry can stop. -/
theorem movable_of_lt {x : Word} (hx : SubsetOf x m) (hp : popcount x = popcount c) {y : Nat} (hy : y < 32)
    (h0 : c.getLsbD y = false) (h1 : x.getLsbD y = true)
    (hj : ∀ j, y < j → j < 32 → c.getLsbD j = x.getLsbD j) : Movable m c y := by
  refine ⟨hy, (subsetOf_iff x m).mp hx y hy h1, h0, ?_⟩
  by_contra hno
  have h4 := popcountBelow_diff (a := c) (b := x) (lo := y + 1) (hi := 32) (by omega) (fun j h1 h2 => hj j (by omega) h2)
  rw [popcountBelow_succ c y, popcountBelow_succ x y, h0, h1] at h4
  have : popcountBelow c y = 0 := by
    have := popcountBelow_congr (a := c) (b := 0#32) (n := y) (fun j hj => by
      cases h : c.getLsbD j
      · simp
      · exact absurd ⟨j, hj, h⟩ hno)
    rw [this]; simp [popcountBelow]
  simp only [popcount] at hp
  simp at h4
  omega

/-- No carry position: `current` is the greatest, and `adv` wraps to the least (41_advance.md R126). -/
theorem adv_wraps (h : IsTableOf t m) (hc : KSubset m k c) (hz : ∀ z, ¬ Movable m c z) :
    IsGreatest m k c ∧ IsLeast m k (adv t k c) := by
  constructor
  · refine ⟨hc, fun x hx => ?_⟩
    by_contra hlt
    rw [BitVec.not_le] at hlt
    obtain ⟨d, h32, h0, h1, hj⟩ := (lt_iff_exists_bit c x).mp hlt
    exact hz d (movable_of_lt hx.1 (hx.2.trans hc.2.symm) h32 h0 h1 hj)
  · have : adv t k c = readTable t k := by
      simp [adv, mask_of_table h, nextUpper_eq_zero hz, popcount, popcountBelow]
    rw [this]
    exact entry_isLeast h (hc.2 ▸ popcount_le_of_subset hc.1)

/-- With a carry position, `adv` is the least greater element of `S(m, k)` (41_advance.md R125, R126). -/
theorem adv_next (h : IsTableOf t m) (hc : KSubset m k c) {z : Nat} (hz : Movable m c z)
    (hmin : ∀ y, y < z → ¬ Movable m c y) : IsNextAfter m k c (adv t k c) := by
  have hub := nextUpper_bit hc.1 hz hmin
  have hc' := (subsetOf_iff c m).mp hc.1
  obtain ⟨hz32, hmz, hcz, q, hq, hcq⟩ := id hz
  have hpos : 0 < popcountBelow c z := by have := popcountBelow_lt c hq hcq; omega
  have hk : popcountBelow c 32 = k := hc.2
  -- population of the upper part
  have hlow : popcountBelow (nextUpper m c) z = 0 := by
    rw [popcountBelow_congr (b := 0#32) (fun j hj => by rw [hub j (by omega), if_pos hj]; simp)]
    simp [popcountBelow]
  have hup := popcountBelow_diff (a := nextUpper m c) (b := c) (lo := z + 1) (hi := 32) (by omega) (fun j h1 h2 => by
    rw [hub j h2, if_neg (by omega), if_neg (by omega)])
  rw [popcountBelow_succ _ z, popcountBelow_succ _ z, hcz, hub z hz32, hlow] at hup
  simp at hup
  have hle : popcountBelow c z ≤ popcountBelow m z := popcountBelow_le_of_imp fun j hj => hc' j (by omega)
  have hcle := popcountBelow_mono c (show z ≤ 32 by omega)
  have hk32 : k ≤ 32 := hk ▸ popcountBelow_le c 32
  have hneed : k - popcount (nextUpper m c) = popcountBelow c z - 1 := by
    rw [popcount]; omega
  have hl := h (popcountBelow c z - 1) (by omega)
  have hav : adv t k c = nextUpper m c ||| readTable t (popcountBelow c z - 1) := by
    simp only [adv, mask_of_table h, hneed]
  -- the bits of the result
  have hbit : ∀ b, b < 32 → (adv t k c).getLsbD b =
      if b < z then (m.getLsbD b && decide (popcountBelow m b < popcountBelow c z - 1))
      else if b = z then true else c.getLsbD b := by
    intro b hb
    rw [hav, BitVec.getLsbD_or, hub b hb, hl b hb]
    by_cases h1 : b < z
    · simp [h1]
    · have h2 := popcountBelow_mono m (show z ≤ b by omega)
      have h3 : decide (popcountBelow m b < popcountBelow c z - 1) = false := by simp; omega
      simp [h1, h3]
  have hpop : popcount (adv t k c) = k := by
    have h1 := popcountBelow_diff (a := adv t k c) (b := c) (lo := z + 1) (hi := 32) (by omega) (fun j h1 h2 => by
      rw [hbit j h2, if_neg (by omega), if_neg (by omega)])
    rw [popcountBelow_succ _ z, popcountBelow_succ _ z, hcz, hbit z hz32] at h1
    have h2 : popcountBelow (adv t k c) z = popcountBelow (readTable t (popcountBelow c z - 1)) z :=
      popcountBelow_congr fun j hj => by rw [hbit j (by omega), if_pos hj, hl j (by omega)]
    rw [popcountBelow_of_isLowestBits hl (by omega)] at h2
    simp at h1
    rw [popcount]; omega
  refine ⟨⟨?_, hpop⟩, ?_, ?_⟩
  · rw [subsetOf_iff]
    intro b hb hv
    rw [hbit b hb] at hv
    split at hv
    · exact (Bool.and_eq_true_iff.mp hv).1
    · split at hv
      · subst b; exact hmz
      · exact hc' b hb hv
  · rw [lt_iff_exists_bit]
    exact ⟨z, hz32, hcz, by rw [hbit z hz32]; simp, fun j h1 h2 => by
      rw [hbit j h2, if_neg (by omega), if_neg (by omega)]⟩
  · intro x hx hlt
    obtain ⟨y, hy, h0, h1, hj⟩ := (lt_iff_exists_bit c x).mp hlt
    have hmov := movable_of_lt hx.1 (hx.2.trans hc.2.symm) hy h0 h1 hj
    have hzy : z ≤ y := by
      by_contra hn
      exact hmin y (by omega) hmov
    rcases Nat.lt_or_eq_of_le hzy with hlt2 | rfl
    · have : adv t k c < x := by
        rw [lt_iff_exists_bit]
        refine ⟨y, hy, ?_, h1, fun j h2 h3 => ?_⟩
        · rw [hbit y hy, if_neg (by omega), if_neg (by omega), h0]
        · rw [hbit j h3, if_neg (by omega), if_neg (by omega), hj j h2 h3]
      exact BitVec.le_of_lt this
    · refine le_of_packed hx.1 (hpop.trans hx.2.symm) ?_
      intro d hd hv hxd hag j hjd hm
      have hdz : d < z := by
        by_contra hn
        rcases Nat.lt_or_eq_of_le (Nat.le_of_not_lt hn) with h2 | rfl
        · rw [hbit d hd, if_neg (by omega), if_neg (by omega), hj d h2 hd, hxd] at hv
          exact absurd hv (by simp)
        · rw [hxd] at h1; exact absurd h1 (by simp)
      rw [hbit d hd, if_pos hdz] at hv
      rw [hbit j (by omega), if_pos (by omega), hm]
      have := popcountBelow_lt m hjd hm
      simp at hv ⊢
      omega

/-- `adv` is the successor function of `S(m, k)`, wrapping from the greatest to the least element (41_advance.md R126). -/
theorem adv_spec (h : IsTableOf t m) (hc : KSubset m k c) :
    IsNextAfter m k c (adv t k c) ∨ (IsGreatest m k c ∧ IsLeast m k (adv t k c)) := by
  classical
  by_cases hex : ∃ z, Movable m c z
  · exact .inl (adv_next h hc (Nat.find_spec hex) fun y hy => Nat.find_min hex hy)
  · exact .inr (adv_wraps h hc fun z hz => hex ⟨z, hz⟩)

/-- The upper part of the next value has no more bits than the current one: `need` never borrows (41_advance.md R125). -/
theorem popcount_nextUpper_le (hc : SubsetOf c m) : popcount (nextUpper m c) ≤ popcount c := by
  classical
  by_cases hex : ∃ z, Movable m c z
  · have hub := nextUpper_bit hc (Nat.find_spec hex) fun y hy => Nat.find_min hex hy
    obtain ⟨hz32, -, hcz, q, hq, hcq⟩ := Nat.find_spec hex
    generalize Nat.find hex = z at hub hz32 hcz hq
    have hpos := popcountBelow_lt c hq hcq
    have hlow : popcountBelow (nextUpper m c) z = 0 := by
      rw [popcountBelow_congr (b := 0#32) (fun j hj => by rw [hub j (by omega), if_pos hj]; simp)]
      simp [popcountBelow]
    have hup := popcountBelow_diff (a := nextUpper m c) (b := c) (lo := z + 1) (hi := 32) (by omega) (fun j h1 h2 => by
      rw [hub j h2, if_neg (by omega), if_neg (by omega)])
    rw [popcountBelow_succ _ z, popcountBelow_succ _ z, hcz, hub z hz32, hlow] at hup
    simp at hup
    unfold popcount; omega
  · rw [nextUpper_eq_zero fun z hz => hex ⟨z, hz⟩]
    simp [popcount, popcountBelow]

/-- The greatest element of `S(m, k)` is the `k` highest set bits of `m` (42_sequence.md R148). -/
theorem isHighestBits_of_isGreatest {v : Word} (h : IsGreatest m k v) : IsHighestBits m k v := by
  have hno : ∀ z, ¬ Movable m v z := by
    by_contra hex
    have hT : IsTableOf (bases m) m := bases_isTable m
    obtain ⟨z, hz⟩ : ∃ z, Movable m v z := by simpa using hex
    classical
    have hn := adv_next hT h.1 (Nat.find_spec ⟨z, hz⟩) fun y hy => Nat.find_min ⟨z, hz⟩ hy
    exact BitVec.not_lt.mpr (h.2 _ hn.1) hn.2.1
  have hsub := (subsetOf_iff v m).mp h.1.1
  have hk : popcountBelow v 32 = k := h.1.2
  intro b hb
  have hmv : popcountBelow v 32 - popcountBelow v (b + 1) ≤ popcountBelow m 32 - popcountBelow m (b + 1) :=
    popcountBelow_sub_le_of_imp hb fun j hj => hsub j hj
  cases hm : m.getLsbD b
  · cases hv : v.getLsbD b
    · rfl
    · rw [hsub b hb hv] at hm; exact absurd hm (by simp)
  · cases hv : v.getLsbD b
    · have h0 : popcountBelow v b = 0 := by
        rw [popcountBelow_congr (b := 0#32) (fun j hj => by
          cases h2 : v.getLsbD j
          · simp
          · exact absurd ⟨hb, hm, hv, j, hj, h2⟩ (hno b))]
        simp [popcountBelow]
      rw [popcountBelow_succ v b, hv, h0] at hmv
      simp at hmv
      exact (decide_eq_false (by rw [popcount]; omega)).symm
    · have heq := popcountBelow_diff (a := m) (b := v) (lo := b + 1) (hi := 32) (by omega) (fun j h1 h2 => by
        cases h3 : v.getLsbD j
        · cases h4 : m.getLsbD j
          · rfl
          · exact absurd ⟨h2, h4, h3, b, by omega, hv⟩ (hno j)
        · rw [hsub j h2 h3])
      have h5 := popcountBelow_succ v b
      rw [hv] at h5
      have h6 := popcountBelow_mono m (show b + 1 ≤ 32 by omega)
      simp at h5
      exact (decide_eq_true (by rw [popcount]; omega)).symm

end Sys2Proof.Machine
end

