-- ==== Sys2Proof/Laws/Count.lean ====
section
/-! SUPPORT. How many k-subsets a mask has, and that they can be listed in increasing order (42_sequence.md R148). -/

namespace Sys2Proof.Machine

/-- The positions of the set bits of a word. -/
def setBits (a : Word) : Finset Nat := (Finset.range 32).filter fun b => a.getLsbD b = true

theorem mem_setBits (a : Word) (b : Nat) : b ∈ setBits a ↔ a.getLsbD b = true := by
  simp only [setBits, Finset.mem_filter, Finset.mem_range, and_iff_right_iff_imp]
  exact BitVec.lt_of_getLsbD

theorem popcountBelow_eq_card (a : Word) (n : Nat) :
    popcountBelow a n = ((Finset.range n).filter fun b => a.getLsbD b = true).card := by
  induction n with
  | zero => rfl
  | succ n ih =>
    rw [popcountBelow_succ, ih, Finset.range_add_one, Finset.filter_insert]
    split <;> simp_all

/-- The population count is the number of set positions (00_scope.md R10). -/
theorem popcount_eq_card (a : Word) : popcount a = (setBits a).card := popcountBelow_eq_card a 32

theorem subsetOf_iff_setBits (a b : Word) : SubsetOf a b ↔ setBits a ⊆ setBits b := by
  rw [subsetOf_iff, Finset.subset_iff]
  simp only [mem_setBits]
  exact ⟨fun h i hi => h i (BitVec.lt_of_getLsbD hi) hi, fun h i _ hi => h hi⟩

theorem setBits_injective : Function.Injective setBits := by
  intro a b h
  refine BitVec.eq_of_getLsbD_eq fun i _ => ?_
  rw [Bool.eq_iff_iff, ← mem_setBits, ← mem_setBits, h]

/-- Every set of positions below 32 is the set bits of a word. -/
theorem exists_setBits_eq {s : Finset Nat} (h : ∀ b ∈ s, b < 32) : ∃ a : Word, setBits a = s := by
  refine ⟨BitVec.ofFnLE fun i : Fin 32 => decide (i.1 ∈ s), ?_⟩
  ext b
  rw [mem_setBits, BitVec.getLsbD_ofFnLE]
  by_cases hb : b < 32
  · simp [hb]
  · simp only [hb, dite_false, Bool.false_eq_true, false_iff]
    exact fun hm => hb (h b hm)

/-- The k-subsets of a mask, as a finite set. -/
def kSubsets (m : Word) (k : Nat) : Finset Word := Finset.univ.filter fun v => KSubset m k v

theorem mem_kSubsets {m v : Word} {k : Nat} : v ∈ kSubsets m k ↔ KSubset m k v := by
  simp [kSubsets]

/-- A mask has `C(popcount(mask), k)` k-subsets (42_sequence.md R148). -/
theorem card_kSubsets (m : Word) (k : Nat) : (kSubsets m k).card = (popcount m).choose k := by
  rw [popcount_eq_card, ← Finset.card_powersetCard]
  refine Finset.card_bij (fun v _ => setBits v) ?_ ?_ ?_
  · intro v hv
    obtain ⟨h1, h2⟩ := mem_kSubsets.mp hv
    exact Finset.mem_powersetCard.mpr ⟨(subsetOf_iff_setBits v m).mp h1, popcount_eq_card v ▸ h2⟩
  · exact fun _ _ _ _ h => setBits_injective h
  · intro s hs
    obtain ⟨h1, h2⟩ := Finset.mem_powersetCard.mp hs
    obtain ⟨a, rfl⟩ := exists_setBits_eq (s := s) fun b hb => BitVec.lt_of_getLsbD ((mem_setBits m b).mp (h1 hb))
    exact ⟨a, mem_kSubsets.mpr ⟨(subsetOf_iff_setBits a m).mpr h1, (popcount_eq_card a).trans h2⟩, rfl⟩

/-- The k-subsets of a mask in increasing order, each once. -/
theorem exists_increasing_kSubsets (m : Word) (k : Nat) :
    ∃ vs : List Word, vs.length = (popcount m).choose k ∧ vs.Pairwise (fun u v => u < v) ∧ ∀ v, v ∈ vs ↔ KSubset m k v := by
  have hmem : ∀ n, n ∈ (kSubsets m k).image BitVec.toNat ↔ ∃ v, KSubset m k v ∧ v.toNat = n := by
    simp [mem_kSubsets]
  have hlt : ∀ n ∈ ((kSubsets m k).image BitVec.toNat).sort (· ≤ ·), n < 2 ^ 32 := by
    intro n hn
    obtain ⟨v, -, rfl⟩ := (hmem n).mp ((Finset.mem_sort _).mp hn)
    exact v.isLt
  refine ⟨(((kSubsets m k).image BitVec.toNat).sort (· ≤ ·)).map (BitVec.ofNat 32), ?_, ?_, fun v => ?_⟩
  · rw [List.length_map, Finset.length_sort, Finset.card_image_of_injective _ fun _ _ h => BitVec.eq_of_toNat_eq h,
      card_kSubsets]
  · rw [List.pairwise_map]
    refine (Finset.sortedLT_sort _).pairwise.imp_of_mem fun {a b} ha hb hab => ?_
    rw [BitVec.lt_def, BitVec.toNat_ofNat, BitVec.toNat_ofNat, Nat.mod_eq_of_lt (hlt a ha), Nat.mod_eq_of_lt (hlt b hb)]
    exact hab
  · simp only [List.mem_map, Finset.mem_sort, hmem]
    constructor
    · rintro ⟨_, ⟨u, hu, rfl⟩, rfl⟩
      simpa using hu
    · exact fun hv => ⟨v.toNat, ⟨v, hv, rfl⟩, by simp⟩

end Sys2Proof.Machine
end

