-- ==== Sys2Proof/Laws/Decode.lean ====
section
/-! SUPPORT. The fields of a packed command word and the must-be-zero test of each format (30_encoding.md R71, R75). -/

namespace Sys2Proof

section fields
variable (op : BitVec 4) (cid k : Nat) (data : Word)

theorem fieldOp_packWord : fieldOp (packWord op cid k data) = op := by
  simp only [fieldOp, packWord]
  exact BitVec.extractLsb'_append_eq_left

theorem fieldCid_packWord : fieldCid (packWord op cid k data) = BitVec.ofNat 4 cid := by
  simp only [fieldCid, packWord]
  rw [BitVec.extractLsb'_append_eq_of_add_le (by omega)]
  exact BitVec.extractLsb'_append_eq_left

theorem fieldRsv_packWord : fieldRsv (packWord op cid k data) = 0#2 := by
  simp only [fieldRsv, packWord]
  rw [BitVec.extractLsb'_append_eq_of_add_le (by omega), BitVec.extractLsb'_append_eq_of_add_le (by omega)]
  exact BitVec.extractLsb'_append_eq_left

theorem fieldK_packWord : fieldK (packWord op cid k data) = BitVec.ofNat 6 k := by
  simp only [fieldK, packWord]
  rw [BitVec.extractLsb'_append_eq_of_add_le (by omega), BitVec.extractLsb'_append_eq_of_add_le (by omega),
    BitVec.extractLsb'_append_eq_of_add_le (by omega)]
  exact BitVec.extractLsb'_append_eq_left

theorem fieldData_packWord : fieldData (packWord op cid k data) = data := by
  simp only [fieldData, packWord]
  rw [BitVec.extractLsb'_append_eq_of_add_le (by omega), BitVec.extractLsb'_append_eq_of_add_le (by omega),
    BitVec.extractLsb'_append_eq_of_add_le (by omega)]
  exact BitVec.extractLsb'_append_eq_right

end fields

/-- A command word is its five fields (30_encoding.md R71). -/
theorem eq_append_fields (w : CommandWord) :
    w = fieldOp w ++ (fieldCid w ++ (fieldRsv w ++ (fieldK w ++ fieldData w))) := by
  simp only [fieldOp, fieldCid, fieldRsv, fieldK, fieldData]
  rw [BitVec.extractLsb'_append_extractLsb'_eq_extractLsb' (by omega),
    BitVec.extractLsb'_append_extractLsb'_eq_extractLsb' (by omega),
    BitVec.extractLsb'_append_extractLsb'_eq_extractLsb' (by omega),
    BitVec.extractLsb'_append_extractLsb'_eq_extractLsb' (by omega)]
  exact BitVec.extractLsb'_eq_self.symm

theorem append_eq_append_iff {m n : Nat} (a b : BitVec m) (c d : BitVec n) : a ++ c = b ++ d ↔ a = b ∧ c = d := by
  refine ⟨fun h => ⟨?_, ?_⟩, fun h => by rw [h.1, h.2]⟩
  · simpa only [BitVec.extractLsb'_append_eq_left] using congrArg (fun v => v.extractLsb' n m) h
  · simpa only [BitVec.extractLsb'_append_eq_right] using congrArg (fun v => v.extractLsb' 0 n) h

theorem and_append_fields (fo mo po fc mc pc : BitVec 4) (fr mr pr : BitVec 2) (fk mk pk : BitVec 6) (fd md pd : BitVec 32) :
    ((fo ++ (fc ++ (fr ++ (fk ++ fd)))) &&& (mo ++ (mc ++ (mr ++ (mk ++ md)))) = po ++ (pc ++ (pr ++ (pk ++ pd)))) ↔
      fo &&& mo = po ∧ fc &&& mc = pc ∧ fr &&& mr = pr ∧ fk &&& mk = pk ∧ fd &&& md = pd := by
  simp only [BitVec.and_append, append_eq_append_iff]

/-- A word's fields decide its masked comparison, field by field. -/
theorem and_append_eq_iff (w : CommandWord) (mo po mc pc : BitVec 4) (mr pr : BitVec 2) (mk pk : BitVec 6) (md pd : Word) :
    (w &&& ((mo ++ (mc ++ (mr ++ (mk ++ md)))) : CommandWord) = (po ++ (pc ++ (pr ++ (pk ++ pd))) : CommandWord)) ↔
      fieldOp w &&& mo = po ∧ fieldCid w &&& mc = pc ∧ fieldRsv w &&& mr = pr ∧ fieldK w &&& mk = pk ∧
        fieldData w &&& md = pd := by
  conv_lhs => rw [eq_append_fields w]
  exact and_append_fields ..

theorem and_ones4 (a : BitVec 4) : a &&& 0xF#4 = a := BitVec.and_allOnes

theorem and_ones2 (a : BitVec 2) : a &&& 0x3#2 = a := BitVec.and_allOnes

theorem and_ones6 (a : BitVec 6) : a &&& 0x3F#6 = a := BitVec.and_allOnes

theorem and_ones32 (a : Word) : a &&& 0xFFFFFFFF#32 = a := BitVec.and_allOnes

section formats
variable (w : CommandWord) {op : BitVec 4} {pattern : CommandWord}

/-- Format M: `CID`, `RSV` and `K` are zero. -/
theorem formatM_iff (h : pattern = op ++ (0#4 ++ (0#2 ++ (0#6 ++ 0#32)))) :
    w &&& 0xFFFF00000000#48 = pattern ↔
      fieldOp w = op ∧ fieldCid w = 0#4 ∧ fieldRsv w = 0#2 ∧ fieldK w = 0#6 := by
  subst h
  refine (and_append_eq_iff w 0xF#4 op 0xF#4 0#4 3#2 0#2 0x3F#6 0#6 0#32 0#32).trans ?_
  simp only [and_ones4, and_ones2, and_ones6, BitVec.and_zero, and_true]

/-- Format J: `CID`, `RSV` and `DATA` are zero. -/
theorem formatJ_iff (h : pattern = op ++ (0#4 ++ (0#2 ++ (0#6 ++ 0#32)))) :
    w &&& 0xFFC0FFFFFFFF#48 = pattern ↔
      fieldOp w = op ∧ fieldCid w = 0#4 ∧ fieldRsv w = 0#2 ∧ fieldData w = 0#32 := by
  subst h
  refine (and_append_eq_iff w 0xF#4 op 0xF#4 0#4 3#2 0#2 0#6 0#6 0xFFFFFFFF#32 0#32).trans ?_
  simp only [and_ones4, and_ones2, and_ones32, BitVec.and_zero, true_and]

/-- Format A: `CID` and `RSV` are zero. -/
theorem formatA_iff (h : pattern = op ++ (0#4 ++ (0#2 ++ (0#6 ++ 0#32)))) :
    w &&& 0xFFC000000000#48 = pattern ↔
      fieldOp w = op ∧ fieldCid w = 0#4 ∧ fieldRsv w = 0#2 := by
  subst h
  refine (and_append_eq_iff w 0xF#4 op 0xF#4 0#4 3#2 0#2 0#6 0#6 0#32 0#32).trans ?_
  simp only [and_ones4, and_ones2, BitVec.and_zero, and_true]

/-- Format C: `RSV`, `K` and `DATA` are zero. -/
theorem formatC_iff (h : pattern = op ++ (0#4 ++ (0#2 ++ (0#6 ++ 0#32)))) :
    w &&& 0xF0FFFFFFFFFF#48 = pattern ↔
      fieldOp w = op ∧ fieldRsv w = 0#2 ∧ fieldK w = 0#6 ∧ fieldData w = 0#32 := by
  subst h
  refine (and_append_eq_iff w 0xF#4 op 0#4 0#4 3#2 0#2 0x3F#6 0#6 0xFFFFFFFF#32 0#32).trans ?_
  simp only [and_ones4, and_ones2, and_ones6, and_ones32, BitVec.and_zero, true_and]

end formats

/-- A word with `RSV` zero is its other four fields packed. -/
theorem eq_packWord {w : CommandWord} (hr : fieldRsv w = 0#2) :
    w = packWord (fieldOp w) (fieldCid w).toNat (fieldK w).toNat (fieldData w) := by
  conv_lhs => rw [eq_append_fields w]
  simp only [packWord, hr, BitVec.ofNat_toNat, BitVec.setWidth_eq]

end Sys2Proof
end

