-- ==== Sys2Proof/Laws/State.lean ====
section
/-! SUPPORT. What each shared operation leaves in each field of State: one lemma per field per operation, true by rfl. -/

namespace Sys2Proof.Machine

@[simp] theorem respond_table (st : Status) (v : Word) (s : State) : (respond st v s).table = s.table := rfl
@[simp] theorem respond_tv (st : Status) (v : Word) (s : State) : (respond st v s).tv = s.tv := rfl
@[simp] theorem respond_sv (st : Status) (v : Word) (s : State) : (respond st v s).sv = s.sv := rfl
@[simp] theorem respond_kreg (st : Status) (v : Word) (s : State) : (respond st v s).kreg = s.kreg := rfl
@[simp] theorem respond_empty (st : Status) (v : Word) (s : State) : (respond st v s).empty = s.empty := rfl
@[simp] theorem respond_cursors (st : Status) (v : Word) (s : State) : (respond st v s).cursors = s.cursors := rfl
@[simp] theorem respond_fault (st : Status) (v : Word) (s : State) : (respond st v s).fault = s.fault := rfl
@[simp] theorem respond_fcode (st : Status) (v : Word) (s : State) : (respond st v s).fcode = s.fcode := rfl
@[simp] theorem respond_debugCheck (st : Status) (v : Word) (s : State) : (respond st v s).debugCheck = s.debugCheck := rfl
@[simp] theorem respond_rsp (st : Status) (v : Word) (s : State) :
    (respond st v s).rsp = some (responseWord st v) := rfl
@[simp] theorem respond_inputs (st : Status) (v : Word) (s : State) : (respond st v s).inputs = s.inputs := rfl
@[simp] theorem respond_draws (st : Status) (v : Word) (s : State) : (respond st v s).draws = s.draws := rfl

@[simp] theorem raiseFault_table (e : FaultCode) (s : State) : (raiseFault e s).table = s.table := rfl
@[simp] theorem raiseFault_tv (e : FaultCode) (s : State) : (raiseFault e s).tv = s.tv := rfl
@[simp] theorem raiseFault_sv (e : FaultCode) (s : State) : (raiseFault e s).sv = s.sv := rfl
@[simp] theorem raiseFault_kreg (e : FaultCode) (s : State) : (raiseFault e s).kreg = s.kreg := rfl
@[simp] theorem raiseFault_empty (e : FaultCode) (s : State) : (raiseFault e s).empty = s.empty := rfl
@[simp] theorem raiseFault_cursors (e : FaultCode) (s : State) : (raiseFault e s).cursors = s.cursors := rfl
@[simp] theorem raiseFault_fault (e : FaultCode) (s : State) : (raiseFault e s).fault = true := rfl
@[simp] theorem raiseFault_fcode (e : FaultCode) (s : State) : (raiseFault e s).fcode = e.code := rfl
@[simp] theorem raiseFault_debugCheck (e : FaultCode) (s : State) : (raiseFault e s).debugCheck = s.debugCheck := rfl
@[simp] theorem raiseFault_rsp (e : FaultCode) (s : State) :
    (raiseFault e s).rsp = some (responseWord .fault (faultValue e.code)) := rfl
@[simp] theorem raiseFault_inputs (e : FaultCode) (s : State) : (raiseFault e s).inputs = s.inputs := rfl
@[simp] theorem raiseFault_draws (e : FaultCode) (s : State) : (raiseFault e s).draws = s.draws := rfl

@[simp] theorem answerFaulted_table (s : State) : (answerFaulted s).table = s.table := rfl
@[simp] theorem answerFaulted_tv (s : State) : (answerFaulted s).tv = s.tv := rfl
@[simp] theorem answerFaulted_sv (s : State) : (answerFaulted s).sv = s.sv := rfl
@[simp] theorem answerFaulted_kreg (s : State) : (answerFaulted s).kreg = s.kreg := rfl
@[simp] theorem answerFaulted_empty (s : State) : (answerFaulted s).empty = s.empty := rfl
@[simp] theorem answerFaulted_cursors (s : State) : (answerFaulted s).cursors = s.cursors := rfl
@[simp] theorem answerFaulted_fault (s : State) : (answerFaulted s).fault = s.fault := rfl
@[simp] theorem answerFaulted_fcode (s : State) : (answerFaulted s).fcode = s.fcode := rfl
@[simp] theorem answerFaulted_debugCheck (s : State) : (answerFaulted s).debugCheck = s.debugCheck := rfl
@[simp] theorem answerFaulted_rsp (s : State) :
    (answerFaulted s).rsp = some (responseWord .fault (faultValue s.fcode)) := rfl
@[simp] theorem answerFaulted_inputs (s : State) : (answerFaulted s).inputs = s.inputs := rfl
@[simp] theorem answerFaulted_draws (s : State) : (answerFaulted s).draws = s.draws := rfl

@[simp] theorem setCst_table (s : State) (c : Nat) (x : CursorState) : (s.setCst c x).table = s.table := rfl
@[simp] theorem setCst_tv (s : State) (c : Nat) (x : CursorState) : (s.setCst c x).tv = s.tv := rfl
@[simp] theorem setCst_sv (s : State) (c : Nat) (x : CursorState) : (s.setCst c x).sv = s.sv := rfl
@[simp] theorem setCst_kreg (s : State) (c : Nat) (x : CursorState) : (s.setCst c x).kreg = s.kreg := rfl
@[simp] theorem setCst_empty (s : State) (c : Nat) (x : CursorState) : (s.setCst c x).empty = s.empty := rfl
@[simp] theorem setCst_cursors (s : State) (c : Nat) (x : CursorState) :
    (s.setCst c x).cursors = s.cursors.set c { s.slot c with cst := x } := rfl
@[simp] theorem setCst_fault (s : State) (c : Nat) (x : CursorState) : (s.setCst c x).fault = s.fault := rfl
@[simp] theorem setCst_fcode (s : State) (c : Nat) (x : CursorState) : (s.setCst c x).fcode = s.fcode := rfl
@[simp] theorem setCst_debugCheck (s : State) (c : Nat) (x : CursorState) : (s.setCst c x).debugCheck = s.debugCheck := rfl
@[simp] theorem setCst_rsp (s : State) (c : Nat) (x : CursorState) : (s.setCst c x).rsp = s.rsp := rfl
@[simp] theorem setCst_inputs (s : State) (c : Nat) (x : CursorState) : (s.setCst c x).inputs = s.inputs := rfl
@[simp] theorem setCst_draws (s : State) (c : Nat) (x : CursorState) : (s.setCst c x).draws = s.draws := rfl

@[simp] theorem setActive_table (s : State) (c : Nat) (v : Word) : (s.setActive c v).table = s.table := rfl
@[simp] theorem setActive_tv (s : State) (c : Nat) (v : Word) : (s.setActive c v).tv = s.tv := rfl
@[simp] theorem setActive_sv (s : State) (c : Nat) (v : Word) : (s.setActive c v).sv = s.sv := rfl
@[simp] theorem setActive_kreg (s : State) (c : Nat) (v : Word) : (s.setActive c v).kreg = s.kreg := rfl
@[simp] theorem setActive_empty (s : State) (c : Nat) (v : Word) : (s.setActive c v).empty = s.empty := rfl
@[simp] theorem setActive_cursors (s : State) (c : Nat) (v : Word) :
    (s.setActive c v).cursors = s.cursors.set c { cst := .active, cur := v } := rfl
@[simp] theorem setActive_fault (s : State) (c : Nat) (v : Word) : (s.setActive c v).fault = s.fault := rfl
@[simp] theorem setActive_fcode (s : State) (c : Nat) (v : Word) : (s.setActive c v).fcode = s.fcode := rfl
@[simp] theorem setActive_debugCheck (s : State) (c : Nat) (v : Word) : (s.setActive c v).debugCheck = s.debugCheck := rfl
@[simp] theorem setActive_rsp (s : State) (c : Nat) (v : Word) : (s.setActive c v).rsp = s.rsp := rfl
@[simp] theorem setActive_inputs (s : State) (c : Nat) (v : Word) : (s.setActive c v).inputs = s.inputs := rfl
@[simp] theorem setActive_draws (s : State) (c : Nat) (v : Word) : (s.setActive c v).draws = s.draws := rfl

@[simp] theorem respondFree_table (s : State) : (respondFree s).table = s.table := rfl
@[simp] theorem respondFree_tv (s : State) : (respondFree s).tv = s.tv := rfl
@[simp] theorem respondFree_sv (s : State) : (respondFree s).sv = s.sv := rfl
@[simp] theorem respondFree_kreg (s : State) : (respondFree s).kreg = s.kreg := rfl
@[simp] theorem respondFree_empty (s : State) : (respondFree s).empty = s.empty := rfl
@[simp] theorem respondFree_cursors (s : State) : (respondFree s).cursors = s.cursors := rfl
@[simp] theorem respondFree_fault (s : State) : (respondFree s).fault = s.fault := rfl
@[simp] theorem respondFree_fcode (s : State) : (respondFree s).fcode = s.fcode := rfl
@[simp] theorem respondFree_debugCheck (s : State) : (respondFree s).debugCheck = s.debugCheck := rfl
@[simp] theorem respondFree_rsp (s : State) :
    (respondFree s).rsp = some (responseWord .ok (Config.freeWord s.draws)) := rfl
@[simp] theorem respondFree_inputs (s : State) : (respondFree s).inputs = s.inputs := rfl
@[simp] theorem respondFree_draws (s : State) : (respondFree s).draws = s.draws + 1 := rfl

@[simp] theorem takeResponse_table (s : State) : (takeResponse s).table = s.table := rfl
@[simp] theorem takeResponse_tv (s : State) : (takeResponse s).tv = s.tv := rfl
@[simp] theorem takeResponse_sv (s : State) : (takeResponse s).sv = s.sv := rfl
@[simp] theorem takeResponse_kreg (s : State) : (takeResponse s).kreg = s.kreg := rfl
@[simp] theorem takeResponse_empty (s : State) : (takeResponse s).empty = s.empty := rfl
@[simp] theorem takeResponse_cursors (s : State) : (takeResponse s).cursors = s.cursors := rfl
@[simp] theorem takeResponse_fault (s : State) : (takeResponse s).fault = s.fault := rfl
@[simp] theorem takeResponse_fcode (s : State) : (takeResponse s).fcode = s.fcode := rfl
@[simp] theorem takeResponse_debugCheck (s : State) : (takeResponse s).debugCheck = s.debugCheck := rfl
@[simp] theorem takeResponse_rsp (s : State) : (takeResponse s).rsp = none := rfl
@[simp] theorem takeResponse_inputs (s : State) : (takeResponse s).inputs = s.inputs := rfl
@[simp] theorem takeResponse_draws (s : State) : (takeResponse s).draws = s.draws := rfl

@[simp] theorem presentCommand_table (w : CommandWord) (s : State) : (presentCommand w s).table = s.table := rfl
@[simp] theorem presentCommand_tv (w : CommandWord) (s : State) : (presentCommand w s).tv = s.tv := rfl
@[simp] theorem presentCommand_sv (w : CommandWord) (s : State) : (presentCommand w s).sv = s.sv := rfl
@[simp] theorem presentCommand_kreg (w : CommandWord) (s : State) : (presentCommand w s).kreg = s.kreg := rfl
@[simp] theorem presentCommand_empty (w : CommandWord) (s : State) : (presentCommand w s).empty = s.empty := rfl
@[simp] theorem presentCommand_cursors (w : CommandWord) (s : State) : (presentCommand w s).cursors = s.cursors := rfl
@[simp] theorem presentCommand_fault (w : CommandWord) (s : State) : (presentCommand w s).fault = s.fault := rfl
@[simp] theorem presentCommand_fcode (w : CommandWord) (s : State) : (presentCommand w s).fcode = s.fcode := rfl
@[simp] theorem presentCommand_debugCheck (w : CommandWord) (s : State) : (presentCommand w s).debugCheck = s.debugCheck := rfl
@[simp] theorem presentCommand_rsp (w : CommandWord) (s : State) : (presentCommand w s).rsp = none := rfl
@[simp] theorem presentCommand_inputs (w : CommandWord) (s : State) :
    (presentCommand w s).inputs = .command w :: s.inputs := rfl
@[simp] theorem presentCommand_draws (w : CommandWord) (s : State) : (presentCommand w s).draws = s.draws := rfl

@[simp] theorem applyReset_table (s : State) :
    (applyReset s).table = Vector.replicate 33 0#32 := rfl
@[simp] theorem applyReset_tv (s : State) : (applyReset s).tv = false := rfl
@[simp] theorem applyReset_sv (s : State) : (applyReset s).sv = false := rfl
@[simp] theorem applyReset_kreg (s : State) : (applyReset s).kreg = 0#6 := rfl
@[simp] theorem applyReset_empty (s : State) : (applyReset s).empty = false := rfl
@[simp] theorem applyReset_cursors (s : State) :
    (applyReset s).cursors = List.replicate s.ncur { cst := .new, cur := 0#32 } := rfl
@[simp] theorem applyReset_fault (s : State) : (applyReset s).fault = false := rfl
@[simp] theorem applyReset_fcode (s : State) : (applyReset s).fcode = 0#4 := rfl
@[simp] theorem applyReset_debugCheck (s : State) : (applyReset s).debugCheck = s.debugCheck := rfl
@[simp] theorem applyReset_rsp (s : State) : (applyReset s).rsp = none := rfl
@[simp] theorem applyReset_inputs (s : State) : (applyReset s).inputs = s.inputs := rfl
@[simp] theorem applyReset_draws (s : State) : (applyReset s).draws = s.draws := rfl

end Sys2Proof.Machine
end

