-- ==== Sys2Proof/Laws/Ops.lean ====
section
/-! SUPPORT. The shared operations of the executor, each once: the guards, the cursor file and the table reads. -/

namespace Sys2Proof.Machine

theorem unlessFaulted_of_fault {s : State} (h : s.fault = true) (r : Result) : unlessFaulted s r = .next (answerFaulted s) :=
  if_pos h

theorem unlessFaulted_of_not {s : State} (h : s.fault = false) (r : Result) : unlessFaulted s r = r := by
  simp [unlessFaulted, h]

/-- A guarded command either answers for a faulted block or goes on. -/
theorem unlessFaulted_cases {s t : State} {r : Result} (h : unlessFaulted s r = .next t) :
    (s.fault = true ∧ t = answerFaulted s) ∨ (s.fault = false ∧ r = .next t) := by
  unfold unlessFaulted at h
  split at h
  · exact .inl ⟨‹_›, (Host.Outcome.next.inj h).symm⟩
  · exact .inr ⟨by simpa using ‹¬ s.fault = true›, h⟩

theorem faultIf_of_bad {bad : Prop} [Decidable bad] {e : FaultCode} {s : State} {r : Result} (h : bad) :
    faultIf bad e s r = .next (raiseFault e s) := if_pos h

theorem faultIf_of_not {bad : Prop} [Decidable bad] {e : FaultCode} {s : State} {r : Result} (h : ¬ bad) :
    faultIf bad e s r = r := if_neg h

/-- A test either raises its fault or goes on. -/
theorem faultIf_cases {bad : Prop} [Decidable bad] {e : FaultCode} {s t : State} {r : Result}
    (h : faultIf bad e s r = .next t) : (bad ∧ t = raiseFault e s) ∨ (¬ bad ∧ r = .next t) := by
  unfold faultIf at h
  split at h
  · exact .inl ⟨‹_›, (Host.Outcome.next.inj h).symm⟩
  · exact .inr ⟨‹_›, h⟩

theorem slot_of_getElem? {s : State} {c : Nat} {x : Cursor} (h : s.cursors[c]? = some x) : s.slot c = x := by
  simp [State.slot, List.getD, h]

theorem lt_ncur_of_getElem? {s : State} {c : Nat} {x : Cursor} (h : s.cursors[c]? = some x) : c < s.ncur :=
  (List.getElem?_eq_some_iff.mp h).1

theorem getElem?_of_lt_ncur {s : State} {c : Nat} (h : c < s.ncur) : s.cursors[c]? = some (s.slot c) := by
  have h' : c < s.cursors.length := h
  simp [State.slot, List.getD, List.getElem?_eq_getElem h']

theorem slot_mem {s : State} {c : Nat} (h : c < s.ncur) : s.slot c ∈ s.cursors :=
  List.mem_of_getElem? (getElem?_of_lt_ncur h)

@[simp] theorem ncur_setCst (s : State) (c : Nat) (x : CursorState) : (s.setCst c x).ncur = s.ncur := by
  simp [State.ncur]

@[simp] theorem ncur_setActive (s : State) (c : Nat) (v : Word) : (s.setActive c v).ncur = s.ncur := by
  simp [State.ncur]

@[simp] theorem ncur_respond (st : Status) (v : Word) (s : State) : (respond st v s).ncur = s.ncur := rfl

@[simp] theorem ncur_raiseFault (e : FaultCode) (s : State) : (raiseFault e s).ncur = s.ncur := rfl

@[simp] theorem ncur_answerFaulted (s : State) : (answerFaulted s).ncur = s.ncur := rfl

@[simp] theorem ncur_applyReset (s : State) : (applyReset s).ncur = s.ncur := by
  simp [State.ncur]

@[simp] theorem length_renewAll (cs : List Cursor) : (renewAll cs).length = cs.length := by
  simp [renewAll]

theorem mem_renewAll {cs : List Cursor} {x : Cursor} (h : x ∈ renewAll cs) : x.cst = .new := by
  obtain ⟨y, -, rfl⟩ := List.mem_map.mp h
  rfl

@[simp] theorem map_cur_renewAll (cs : List Cursor) : (renewAll cs).map (fun x => x.cur) = cs.map (fun x => x.cur) := by
  simp [renewAll]

theorem readTable_of_lt (t : Table) {j : Nat} (h : j < 33) : readTable t j = t[j] := by
  simp [readTable, Nat.min_eq_left (show j ≤ 32 by omega)]

end Sys2Proof.Machine
end

