-- ==== Sys2Proof/Laws/Exec.lean ====
section
/-! SUPPORT. What each command and each step can do, said once: every next state of a command or a step is one of the cases
listed. -/

namespace Sys2Proof.Machine

section commands
variable {s t : State}

theorem execBuild_cases {mask : Word} (h : execBuild mask s = .next t) :
    (s.fault = true ∧ t = answerFaulted s) ∨
    (s.fault = false ∧ t = respond .ok 0#32
      { s with
        table := bases mask, tv := true, sv := false, kreg := 0#6, empty := false, cursors := renewAll s.cursors }) := by
  obtain h | ⟨hf, h⟩ := unlessFaulted_cases h
  · exact .inl h
  · exact .inr ⟨hf, (Host.Outcome.next.inj h).symm⟩

theorem execRdtab_cases {j : Nat} (h : execRdtab j s = .next t) :
    (s.fault = true ∧ t = answerFaulted s) ∨
    (s.fault = false ∧ 32 < j ∧ t = raiseFault .countRange s) ∨
    (s.fault = false ∧ j ≤ 32 ∧ s.tv = false ∧ t = raiseFault .noTable s) ∨
    (s.fault = false ∧ j ≤ 32 ∧ s.tv = true ∧ t = respond .ok (readTable s.table j) s) := by
  obtain h | ⟨hf, h⟩ := unlessFaulted_cases h
  · exact .inl h
  obtain ⟨hk, rfl⟩ | ⟨hk, h⟩ := faultIf_cases h
  · exact .inr (.inl ⟨hf, hk, rfl⟩)
  obtain ⟨ht, rfl⟩ | ⟨ht, h⟩ := faultIf_cases h
  · exact .inr (.inr (.inl ⟨hf, Nat.le_of_not_lt hk, ht, rfl⟩))
  · exact .inr (.inr (.inr ⟨hf, Nat.le_of_not_lt hk, by simpa using ht, (Host.Outcome.next.inj h).symm⟩))

theorem execAdvance_cases {k : Nat} {current : Word} (h : execAdvance k current s = .next t) :
    (s.fault = true ∧ t = answerFaulted s) ∨
    (s.fault = false ∧ 32 < k ∧ t = raiseFault .countRange s) ∨
    (s.fault = false ∧ k ≤ 32 ∧ s.tv = false ∧ t = raiseFault .noTable s) ∨
    (s.fault = false ∧ k ≤ 32 ∧ s.tv = true ∧ s.debugCheck = true ∧ popcount current ≠ k ∧ t = raiseFault .precond s) ∨
    (s.fault = false ∧ k ≤ 32 ∧ s.tv = true ∧ InContract s.table k current ∧
      t = respond .ok (adv s.table k current) s) ∨
    (s.fault = false ∧ k ≤ 32 ∧ s.tv = true ∧ ¬ InContract s.table k current ∧
      (s.debugCheck = false ∨ popcount current = k) ∧ t = respondFree s) := by
  obtain h | ⟨hf, h⟩ := unlessFaulted_cases h
  · exact .inl h
  obtain ⟨hk, rfl⟩ | ⟨hk, h⟩ := faultIf_cases h
  · exact .inr (.inl ⟨hf, hk, rfl⟩)
  replace hk : k ≤ 32 := Nat.le_of_not_lt hk
  obtain ⟨ht, rfl⟩ | ⟨ht, h⟩ := faultIf_cases h
  · exact .inr (.inr (.inl ⟨hf, hk, ht, rfl⟩))
  replace ht : s.tv = true := by simpa using ht
  obtain ⟨⟨hd, hp⟩, rfl⟩ | ⟨hd, h⟩ := faultIf_cases h
  · exact .inr (.inr (.inr (.inl ⟨hf, hk, ht, hd, hp, rfl⟩)))
  split at h
  · exact .inr (.inr (.inr (.inr (.inl ⟨hf, hk, ht, ‹_›, (Host.Outcome.next.inj h).symm⟩))))
  · refine .inr (.inr (.inr (.inr (.inr ⟨hf, hk, ht, ‹_›, ?_, (Host.Outcome.next.inj h).symm⟩))))
    by_cases hp : popcount current = k
    · exact .inr hp
    · exact .inl (by simpa [hp] using hd)

theorem execSeqinit_cases {mask : Word} {k : Nat} (h : execSeqinit mask k s = .next t) :
    (s.fault = true ∧ t = answerFaulted s) ∨
    (s.fault = false ∧ 32 < k ∧ t = raiseFault .countRange s) ∨
    (s.fault = false ∧ k ≤ 32 ∧ t = respond .ok 0#32
      { s with
        table := bases mask, tv := true, sv := true, kreg := BitVec.ofNat 6 k, empty := emptyFlag mask k
        cursors := renewAll s.cursors }) := by
  obtain h | ⟨hf, h⟩ := unlessFaulted_cases h
  · exact .inl h
  obtain ⟨hk, rfl⟩ | ⟨hk, h⟩ := faultIf_cases h
  · exact .inr (.inl ⟨hf, hk, rfl⟩)
  · exact .inr (.inr ⟨hf, Nat.le_of_not_lt hk, (Host.Outcome.next.inj h).symm⟩)

theorem execCurnew_cases {c : Nat} (h : execCurnew c s = .next t) :
    (s.fault = true ∧ t = answerFaulted s) ∨
    (s.fault = false ∧ s.ncur ≤ c ∧ t = raiseFault .badCid s) ∨
    (s.fault = false ∧ c < s.ncur ∧ s.sv = false ∧ t = raiseFault .noSeq s) ∨
    (s.fault = false ∧ c < s.ncur ∧ s.sv = true ∧ t = respond .ok 0#32 (s.setCst c .new)) := by
  obtain h | ⟨hf, h⟩ := unlessFaulted_cases h
  · exact .inl h
  obtain ⟨hc, rfl⟩ | ⟨hc, h⟩ := faultIf_cases h
  · exact .inr (.inl ⟨hf, hc, rfl⟩)
  obtain ⟨hs, rfl⟩ | ⟨hs, h⟩ := faultIf_cases h
  · exact .inr (.inr (.inl ⟨hf, Nat.lt_of_not_le hc, hs, rfl⟩))
  · exact .inr (.inr (.inr ⟨hf, Nat.lt_of_not_le hc, by simpa using hs, (Host.Outcome.next.inj h).symm⟩))

theorem execNext_cases {c : Nat} (h : execNext c s = .next t) :
    (s.fault = true ∧ t = answerFaulted s) ∨
    (s.fault = false ∧ s.ncur ≤ c ∧ t = raiseFault .badCid s) ∨
    (s.fault = false ∧ c < s.ncur ∧ s.sv = false ∧ t = raiseFault .noSeq s) ∨
    (s.fault = false ∧ c < s.ncur ∧ s.sv = true ∧ s.empty = true ∧ t = respond .ended 0#32 (s.setCst c .done)) ∨
    (s.fault = false ∧ c < s.ncur ∧ s.sv = true ∧ s.empty = false ∧ t = pull c s) := by
  obtain h | ⟨hf, h⟩ := unlessFaulted_cases h
  · exact .inl h
  obtain ⟨hc, rfl⟩ | ⟨hc, h⟩ := faultIf_cases h
  · exact .inr (.inl ⟨hf, hc, rfl⟩)
  replace hc := Nat.lt_of_not_le hc
  obtain ⟨hs, rfl⟩ | ⟨hs, h⟩ := faultIf_cases h
  · exact .inr (.inr (.inl ⟨hf, hc, hs, rfl⟩))
  replace hs : s.sv = true := by simpa using hs
  split at h
  · exact .inr (.inr (.inr (.inl ⟨hf, hc, hs, ‹_›, (Host.Outcome.next.inj h).symm⟩)))
  · exact .inr (.inr (.inr (.inr ⟨hf, hc, hs, by simpa using ‹¬ s.empty = true›, (Host.Outcome.next.inj h).symm⟩)))

/-- The arms of NEXT on a sequence that is not empty. -/
theorem pull_cases (c : Nat) (s : State) :
    ((s.slot c).cst = .new ∧ pull c s = respond .ok s.seed (s.setActive c s.seed)) ∨
    ((s.slot c).cst = .active ∧ (s.slot c).cur < adv s.table s.kreg.toNat (s.slot c).cur ∧
      pull c s = respond .ok (adv s.table s.kreg.toNat (s.slot c).cur)
        (s.setActive c (adv s.table s.kreg.toNat (s.slot c).cur))) ∨
    ((s.slot c).cst = .active ∧ ¬ (s.slot c).cur < adv s.table s.kreg.toNat (s.slot c).cur ∧
      pull c s = respond .ended 0#32 (s.setCst c .done)) ∨
    ((s.slot c).cst = .done ∧ pull c s = respond .ended 0#32 s) := by
  cases h : (s.slot c).cst with
  | new => exact .inl ⟨rfl, by simp only [pull, h]⟩
  | active =>
    by_cases hlt : (s.slot c).cur < adv s.table s.kreg.toNat (s.slot c).cur
    · exact .inr (.inl ⟨rfl, hlt, by simp only [pull, h, if_pos hlt]⟩)
    · exact .inr (.inr (.inl ⟨rfl, hlt, by simp only [pull, h, if_neg hlt]⟩))
  | done => exact .inr (.inr (.inr ⟨rfl, by simp only [pull, h]⟩))

theorem execRdstat_cases {c : Nat} (h : execRdstat c s = .next t) :
    (s.fault = true ∧ t = answerFaulted s) ∨
    (s.fault = false ∧ s.ncur ≤ c ∧ t = raiseFault .badCid s) ∨
    (s.fault = false ∧ c < s.ncur ∧ t = respond .ok (statusWord s c) s) := by
  obtain h | ⟨hf, h⟩ := unlessFaulted_cases h
  · exact .inl h
  obtain ⟨hc, rfl⟩ | ⟨hc, h⟩ := faultIf_cases h
  · exact .inr (.inl ⟨hf, hc, rfl⟩)
  · exact .inr (.inr ⟨hf, Nat.lt_of_not_le hc, (Host.Outcome.next.inj h).symm⟩)

end commands

/-- A transaction answers for a faulted block, raises an illegal word's fault, or runs the command. -/
theorem transact_cases {w : CommandWord} {s t : State} (h : transact w s = .next t) :
    (s.fault = true ∧ t = answerFaulted s) ∨
    (∃ e, s.fault = false ∧ decode w = .error e ∧ t = raiseFault (illegalCode e) s) ∨
    (∃ i, s.fault = false ∧ decode w = .ok i ∧ exec i s = .next t) := by
  obtain h | ⟨hf, h⟩ := unlessFaulted_cases h
  · exact .inl h
  cases hd : decode w with
  | error e => exact .inr (.inl ⟨e, hf, rfl, by rw [hd] at h; exact (Host.Outcome.next.inj h).symm⟩)
  | ok i => exact .inr (.inr ⟨i, hf, rfl, by rw [hd] at h; exact h⟩)

/-- What holding a command can do: nothing, take the response, or a reset. -/
theorem holdCommand_cases (w : CommandWord) (rest : List HostInput) (s : State) :
    (holdCommand w rest s = s ∧ ∀ more, rest ≠ .takeResponse :: more ∧ rest ≠ .reset :: more) ∨
    (∃ more, rest = .takeResponse :: more ∧ holdCommand w rest s = takeResponse { s with inputs := .command w :: more }) ∨
    (∃ more, rest = .reset :: more ∧ holdCommand w rest s = applyReset { s with inputs := .command w :: more }) := by
  match rest with
  | [] => exact .inl ⟨rfl, by simp⟩
  | .command _ :: _ => exact .inl ⟨rfl, by simp⟩
  | .takeResponse :: more => exact .inr (.inl ⟨more, rfl, rfl⟩)
  | .reset :: more => exact .inr (.inr ⟨more, rfl, rfl⟩)

/-- Everything a step can do: nothing, a reset, a response taken, or a transaction; in the second and third case the host's
remaining actions are some list. -/
theorem step_cases {s t : State} (h : step s = .next t) :
    (t = s ∧ resetsNow s = false) ∨
    (resetsNow s = true ∧ ∃ more, t = applyReset { s with inputs := more }) ∨
    (resetsNow s = false ∧ ∃ more, t = takeResponse { s with inputs := more }) ∨
    (resetsNow s = false ∧ ∃ w rest, s.inputs = .command w :: rest ∧ s.rsp = none ∧
      transact w { s with inputs := rest } = .next t) := by
  unfold step hostAction at h
  split at h
  · exact .inl ⟨(Host.Outcome.next.inj h).symm, by simp [resetsNow, *]⟩
  · exact .inr (.inl ⟨by simp [resetsNow, *], _, (Host.Outcome.next.inj h).symm⟩)
  · exact .inr (.inr (.inl ⟨by simp [resetsNow, *], _, (Host.Outcome.next.inj h).symm⟩))
  · rename_i w rest hin
    split at h
    · have hr : s.rsp = none := by simpa [State.cmdReady] using ‹s.cmdReady = true›
      refine .inr (.inr (.inr ⟨?_, w, rest, hin, hr, h⟩))
      unfold resetsNow
      split <;> simp_all
    · have hr : s.rsp.isSome = true := by simpa [State.cmdReady, Option.isSome_iff_ne_none] using ‹¬ s.cmdReady = true›
      replace h := Host.Outcome.next.inj h
      obtain ⟨h1, h2⟩ | ⟨more, rfl, h1⟩ | ⟨more, rfl, h1⟩ := holdCommand_cases w rest s <;> rw [h1] at h <;> subst h
      · refine .inl ⟨rfl, ?_⟩
        unfold resetsNow
        split
        · simp_all
        · rename_i heq
          obtain ⟨-, rfl⟩ := List.cons.inj (hin.symm.trans heq)
          exact absurd rfl (h2 _).2
        · rfl
      · exact .inr (.inr (.inl ⟨by simp [resetsNow, hin], _, rfl⟩))
      · exact .inr (.inl ⟨by simp [resetsNow, hin, hr], _, rfl⟩)

end Sys2Proof.Machine
end

