-- ==== Sys2Proof/Laws/PerInstr.lean ====
section
/-! SUPPORT. Per command: the word `encode` gives is never an illegal encoding, whatever the operands (30_encoding.md R82). -/

namespace Sys2Proof.Laws.EncodesLegalWord

open Sys2Proof.Machine

/-- The encoded word names a command and has every must-be-zero field zero. -/
def Statement (i : Instr) : Prop := ¬ HasIllegalOp (encode i) ∧ ¬ HasBadField (encode i)

theorem build (mask : Word) : Statement (.build mask) := by
  simp [Statement, HasIllegalOp, HasBadField, encode, fieldOp_packWord, fieldCid_packWord, fieldRsv_packWord, fieldK_packWord]

theorem rdtab (j : Nat) : Statement (.rdtab j) := by
  simp [Statement, HasIllegalOp, HasBadField, encode, fieldOp_packWord, fieldCid_packWord, fieldRsv_packWord, fieldData_packWord]

theorem advance (k : Nat) (current : Word) : Statement (.advance k current) := by
  simp [Statement, HasIllegalOp, HasBadField, encode, fieldOp_packWord, fieldCid_packWord, fieldRsv_packWord]

theorem seqinit (mask : Word) (k : Nat) : Statement (.seqinit mask k) := by
  simp [Statement, HasIllegalOp, HasBadField, encode, fieldOp_packWord, fieldCid_packWord, fieldRsv_packWord]

theorem curnew (cid : Nat) : Statement (.curnew cid) := by
  simp [Statement, HasIllegalOp, HasBadField, encode, fieldOp_packWord, fieldRsv_packWord, fieldK_packWord, fieldData_packWord]

theorem next (cid : Nat) : Statement (.next cid) := by
  simp [Statement, HasIllegalOp, HasBadField, encode, fieldOp_packWord, fieldRsv_packWord, fieldK_packWord, fieldData_packWord]

theorem rdstat (cid : Nat) : Statement (.rdstat cid) := by
  simp [Statement, HasIllegalOp, HasBadField, encode, fieldOp_packWord, fieldRsv_packWord, fieldK_packWord, fieldData_packWord]

end Sys2Proof.Laws.EncodesLegalWord
end

