-- ==== Sys2Proof/Laws/Run.lean ====
section
/-! SUPPORT. One accepted command as a step, one command of a run, and NEXT on a slot that exists with a sequence. -/

namespace Sys2Proof.Machine

/-- A command with no response waiting is one transaction (00_scope.md R13). -/
theorem step_of_command {s : State} {w : CommandWord} {rest : List HostInput} (hin : s.inputs = .command w :: rest)
    (hr : s.rsp = none) : step s = transact w { s with inputs := rest } := by
  simp [step, hostAction, hin, State.cmdReady, hr]

/-- An unfaulted block runs the command its word decodes to. -/
theorem transact_of_decode {s : State} {w : CommandWord} {i : Instr} (hf : s.fault = false) (hd : decode w = .ok i) :
    transact w s = exec i s := by
  rw [transact, unlessFaulted_of_not hf, hd]

/-- The first command of a run (00_scope.md R14). -/
theorem run_cons {s t : State} {w : CommandWord} {i : Instr} {r : ResponseWord} (ws : List CommandWord)
    (hf : s.fault = false) (hd : decode w = .ok i) (he : exec i { s with rsp := none, inputs := [] } = .next t)
    (hr : t.rsp = some r) : run s (w :: ws) = (run t ws).map fun p => (p.1, r :: p.2) := by
  have h : step (presentCommand w { s with inputs := [] }) = .next t := by
    rw [step_of_command (s := presentCommand w { s with inputs := [] }) rfl rfl]
    exact (transact_of_decode (s := { s with rsp := none, inputs := [] }) hf hd).trans he
  rw [run, h]
  simp only [hr]

/-- NEXT past its tests (42_sequence.md R146). -/
theorem execNext_of_ready {s : State} {c : Nat} (hf : s.fault = false) (hc : c < s.ncur) (hs : s.sv = true) :
    execNext c s = if s.empty then .next (respond .ended 0#32 (s.setCst c .done)) else .next (pull c s) := by
  rw [execNext, unlessFaulted_of_not hf, faultIf_of_not (Nat.not_le.mpr hc), faultIf_of_not (by simp [hs])]

/-- Writing an existing slot's state and reading it back. -/
theorem slot_setCst {s : State} {c : Nat} (h : c < s.ncur) (x : CursorState) :
    (s.setCst c x).slot c = { s.slot c with cst := x } := by
  have h' : c < s.cursors.length := h
  exact slot_of_getElem? (by simp [State.setCst, h'])

/-- Yielding a value to an existing slot and reading it back. -/
theorem slot_setActive {s : State} {c : Nat} (h : c < s.ncur) (v : Word) : (s.setActive c v).slot c = ⟨.active, v⟩ := by
  have h' : c < s.cursors.length := h
  exact slot_of_getElem? (by simp [State.setActive, h'])

/-- The other slots are left alone. -/
theorem getElem?_setCst_ne (s : State) {c d : Nat} (x : CursorState) (h : d ≠ c) :
    (s.setCst c x).cursors[d]? = s.cursors[d]? := List.getElem?_set_ne (Ne.symm h)

theorem getElem?_setActive_ne (s : State) {c d : Nat} (v : Word) (h : d ≠ c) :
    (s.setActive c v).cursors[d]? = s.cursors[d]? := List.getElem?_set_ne (Ne.symm h)

end Sys2Proof.Machine
end

