-- ==== Sys2Proof/Tests/Slice0.lean ====
section
/-! SUPPORT. Tests, each expected result from the spec (30_encoding.md R84, 43_status.md R172, 95_test_vectors.md), and for every
statement of Certificates/Slice0/Obligations.lean with hypotheses a state and operands that meet them (test_witness_...). -/

namespace Sys2Proof.Tests

set_option Elab.async false

open Sys2Proof.Machine

/-! ## Small states -/

/-- The next state, if there is one. -/
def next? (r : Result) : Option State :=
  match r with
  | .next t => some t
  | .fault _ => none
  | .refused _ => none

/-- The answer a command gives. -/
def answer (r : Result) : Option ResponseWord := (next? r).bind fun t => t.rsp

/-- A block of `n` slots after reset. -/
def fresh (n : Nat) (check : Bool) : State := State.resetOf { ncur := n, debugCheck := check }

/-- The block after BUILD m. -/
def built (n : Nat) (check : Bool) (m : Word) : State := { fresh n check with table := bases m, tv := true }

/-- The block after SEQINIT m, k, slot 0 at `x`. -/
def seq (n : Nat) (m : Word) (k : Nat) (x : Cursor) : State :=
  { built n false m with
    sv := true, kreg := BitVec.ofNat 6 k, empty := emptyFlag m k
    cursors := (fresh n false).cursors.set 0 x }

/-- A cursor that has yielded nothing, one that has yielded `v`, one that has ended. -/
def isNew : Cursor := { cst := .new, cur := 0#32 }
def activeAt (v : Word) : Cursor := { cst := .active, cur := v }
def isDone : Cursor := { cst := .done, cur := 0#32 }

/-- The block after a fault. -/
def faulted (e : FaultCode) : State := { fresh 2 false with fault := true, fcode := e.code }

/-! ## Decoding: words written out bit by bit -/

theorem test_decode_build :
    decode 0b0001_0000_00_000000_00000000000000000000000000011011#48 = .ok (.build 0x1B#32) := by decide
theorem test_decode_rdtab :
    decode 0b0010_0000_00_000011_00000000000000000000000000000000#48 = .ok (.rdtab 3) := by decide
theorem test_decode_advance :
    decode 0b0011_0000_00_000010_00000000000000000000000000000011#48 = .ok (.advance 2 0x3#32) := by decide
theorem test_decode_seqinit :
    decode 0b0100_0000_00_000010_00000000000000000000000000001011#48 = .ok (.seqinit 0xB#32 2) := by decide
theorem test_decode_curnew :
    decode 0b0101_0001_00_000000_00000000000000000000000000000000#48 = .ok (.curnew 1) := by decide
theorem test_decode_next :
    decode 0b0110_1000_00_000000_00000000000000000000000000000000#48 = .ok (.next 8) := by decide
theorem test_decode_rdstat :
    decode 0b0111_1111_00_000000_00000000000000000000000000000000#48 = .ok (.rdstat 15) := by decide

/-- The table's words: the unlisted bits zero. -/
theorem test_decode_table_word :
    decodeTableWord 48 0x4020FFFFFFFF = some (.seqinit 0xFFFFFFFF#32 32) ∧ decodeTableWord 48 0x800000000000 = none := by
  decide

/-- F1 to F3: `ILLEGAL_OP`. -/
theorem test_decode_illegal_op :
    [0x000000000000#48, 0xFFFFFFFFFFFF#48, 0x800000000000#48].all (fun w => decode w = .error .illegalOp) = true := by decide

/-- F4 to F11: `BAD_FIELD`. -/
theorem test_decode_bad_field :
    [0x100100000000#48, 0x110000000000#48, 0x104000000000#48, 0x200000000001#48, 0x304000000000#48,
      0x600100000000#48, 0x700000000001#48, 0x202100000001#48].all (fun w => decode w = .error .badField) = true := by decide

/-- The encoder on the rows of R84. -/
theorem test_encode_examples :
    encode (.build 0x1B#32) = 0x10000000001B#48 ∧ encode (.advance 2 0x3#32) = 0x300200000003#48 ∧
    encode (.curnew 1) = 0x510000000000#48 ∧ encode (.rdtab 32) = 0x202000000000#48 := by decide

/-! ## Ill-formed commands are refused by WellFormed -/

theorem test_illformed_rdtab : (Instr.rdtab 64).wf = false ∧ (Instr.rdtab 63).wf = true := by decide
theorem test_illformed_advance : (Instr.advance 64 0#32).wf = false ∧ (Instr.advance 63 0#32).wf = true := by decide
theorem test_illformed_seqinit : (Instr.seqinit 0#32 64).wf = false ∧ (Instr.seqinit 0#32 63).wf = true := by decide
theorem test_illformed_curnew : (Instr.curnew 16).wf = false ∧ (Instr.curnew 15).wf = true := by decide
theorem test_illformed_next : (Instr.next 16).wf = false ∧ (Instr.next 15).wf = true := by decide
theorem test_illformed_rdstat : (Instr.rdstat 16).wf = false ∧ (Instr.rdstat 15).wf = true := by decide

/-! ## The commands -/

/-- B7: the table of `0x1B`. -/
theorem test_build_table :
    (next? (exec (.build 0x1B#32) (fresh 2 false))).map (fun t => (List.range 6).map (readTable t.table)) =
      some [0x0#32, 0x1#32, 0x3#32, 0xB#32, 0x1B#32, 0x1B#32] := by decide +kernel

/-- B10: all bits set; B3: bit 31 alone. -/
theorem test_build_edges :
    readTable (bases 0xFFFFFFFF#32) 31 = 0x7FFFFFFF#32 ∧ readTable (bases 0xFFFFFFFF#32) 32 = 0xFFFFFFFF#32 ∧
    readTable (bases 0x80000000#32) 0 = 0#32 ∧ readTable (bases 0x80000000#32) 1 = 0x80000000#32 := by decide +kernel

/-- P1 steps 5 and 8 and the RDTAB corner vectors: saturation, the mask, the range test. -/
theorem test_rdtab :
    answer (exec (.rdtab 3) (built 2 false 0x1B#32)) = some 0x00000000B#36 ∧
    answer (exec (.rdtab 32) (built 2 false 0x1B#32)) = some 0x00000001B#36 ∧
    answer (exec (.rdtab 33) (built 2 false 0x1B#32)) = some 0xF00000003#36 := by decide +kernel

/-- A3 (wrap), A8 (`0 - 1`), A18 (the carry runs over 30 bits), A23 (a kept high bit), A24 (the carry crosses a gap). -/
theorem test_advance :
    adv (bases 0xB#32) 2 0xA#32 = 0x3#32 ∧ adv (bases 0x1B#32) 0 0#32 = 0#32 ∧
    adv (bases 0x80000001#32) 1 0x1#32 = 0x80000000#32 ∧ adv (bases 0xF0F0#32) 2 0x8080#32 = 0x9000#32 ∧
    adv (bases 0xF0F0#32) 4 0xF0#32 = 0x1070#32 := by decide +kernel

/-- R120's example; A32, the debug check; A31 and A34, an answer comes, no fault is raised, and one draw is used. -/
theorem test_advance_command :
    answer (exec (.advance 2 0x3#32) (built 2 false 0xB#32)) = some 0x000000009#36 ∧
    answer (exec (.advance 2 0x1#32) (built 2 true 0xB#32)) = some 0xF00000007#36 ∧
    (next? (exec (.advance 2 0x1#32) (built 2 false 0xB#32))).map (fun t => (t.fault, t.rsp.isSome, t.draws)) =
      some (false, true, 1) ∧
    (next? (exec (.advance 2 0x6#32) (built 2 true 0xB#32))).map (fun t => (t.fault, t.rsp.isSome, t.draws)) =
      some (false, true, 1) := by decide +kernel

/-- R141's example and S3: `KREG`, `EMPTY`. -/
theorem test_seqinit :
    (next? (exec (.seqinit 0xB#32 2) (fresh 2 false))).map (fun t => (t.kreg, t.empty, t.sv, t.rsp)) =
      some (2#6, false, true, some 0#36) ∧
    (next? (exec (.seqinit 0x7#32 4) (fresh 2 false))).map (fun t => t.empty) = some true := by decide +kernel

/-- F14, F16: 33 is out of range, 32 is legal. -/
theorem test_seqinit_range :
    answer (exec (.seqinit 0xFFFFFFFF#32 33) (fresh 2 false)) = some 0xF00000003#36 ∧
    answer (exec (.seqinit 0xFFFFFFFF#32 32) (fresh 2 false)) = some 0x000000000#36 := by decide +kernel

/-- Q24: only the state of the one slot changes. -/
theorem test_curnew :
    (next? (exec (.curnew 0) (seq 2 0xB#32 2 (activeAt 0x9#32)))).map (fun t => t.cursors) =
      some [{ cst := .new, cur := 0x9#32 }, isNew] := by decide +kernel

/-- F24, and `BAD_CID` on the first slot number beyond. -/
theorem test_curnew_faults :
    answer (exec (.curnew 0) (fresh 2 false)) = some 0xF00000006#36 ∧
    answer (exec (.curnew 2) (fresh 2 false)) = some 0xF00000004#36 := by decide +kernel

/-- S1: the seed, the next value, the end, and END again. -/
theorem test_next :
    answer (exec (.next 0) (seq 2 0xB#32 2 isNew)) = some 0x000000003#36 ∧
    answer (exec (.next 0) (seq 2 0xB#32 2 (activeAt 0x3#32))) = some 0x000000009#36 ∧
    answer (exec (.next 0) (seq 2 0xB#32 2 (activeAt 0xA#32))) = some 0x100000000#36 ∧
    answer (exec (.next 0) (seq 2 0xB#32 2 isDone)) = some 0x100000000#36 := by decide +kernel

/-- S3, S4, S5: the empty sequence, `k = 0`, `k = 32`. -/
theorem test_next_edges :
    answer (exec (.next 0) (seq 2 0x7#32 4 isNew)) = some 0x100000000#36 ∧
    answer (exec (.next 0) (seq 2 0x0#32 0 isNew)) = some 0x000000000#36 ∧
    answer (exec (.next 0) (seq 2 0x0#32 0 (activeAt 0#32))) = some 0x100000000#36 ∧
    answer (exec (.next 0) (seq 2 0xFFFFFFFF#32 32 isNew)) = some 0x0FFFFFFFF#36 := by decide +kernel

/-- R172: the status word. -/
theorem test_rdstat :
    answer (exec (.rdstat 0) (fresh 2 false)) = some 0x000000000#36 ∧
    answer (exec (.rdstat 0) (built 2 false 0x1B#32)) = some 0x000000001#36 ∧
    answer (exec (.rdstat 0) (seq 2 0xB#32 2 (activeAt 0x3#32))) = some 0x000010203#36 ∧
    answer (exec (.rdstat 0) (seq 2 0xB#32 2 isDone)) = some 0x000020203#36 ∧
    answer (exec (.rdstat 0) (seq 2 0x7#32 4 isDone)) = some 0x000020407#36 := by decide +kernel

/-- F18, F19: slot 15 exists only with 16 slots. -/
theorem test_rdstat_slots :
    answer (exec (.rdstat 15) (fresh 2 false)) = some 0xF00000004#36 ∧
    answer (exec (.rdstat 15) (fresh 16 false)) = some 0x000000000#36 := by decide +kernel

/-! ## Steps -/

/-- F26: a faulted block answers a BUILD and an illegal word with the first code, and does not run them. -/
theorem test_sticky_fault :
    (next? (step (presentCommand 0x100000000001#48 (faulted .noTable)))).map (fun t => (t.rsp, t.fcode, t.tv)) =
      some (some 0xF00000005#36, 5#4, false) ∧
    (next? (step (presentCommand 0x000000000000#48 (faulted .noTable)))).map (fun t => (t.rsp, t.fcode)) =
      some (some 0xF00000005#36, 5#4) := by decide +kernel

/-- F11, F13, F20: the order of the tests. -/
theorem test_fault_priority :
    answer (step (presentCommand 0x202100000001#48 (fresh 2 false))) = some 0xF00000002#36 ∧
    answer (step (presentCommand 0x302100000000#48 (fresh 2 false))) = some 0xF00000003#36 ∧
    answer (step (presentCommand 0x6F0000000000#48 (fresh 2 false))) = some 0xF00000004#36 := by decide +kernel

/-- A command held while a response waits is not run, also with another command behind it, and is accepted once the host has taken
the response; a reset in between comes first (R223, R210). -/
theorem test_held_command :
    (next? (step { fresh 2 false with rsp := some 0#36, inputs := [.command 0#48, .command 0#48] })).map
      (fun t => (t.fault, t.rsp, t.inputs)) = some (false, some 0#36, [.command 0#48, .command 0#48]) ∧
    (next? (step { fresh 2 false with rsp := some 0#36, inputs := [.command 0#48, .takeResponse] })).map
      (fun t => (t.rsp, t.inputs)) = some (none, [.command 0#48]) ∧
    (next? (step { faulted .noSeq with rsp := some 0#36, inputs := [.command 0#48, .reset] })).map
      (fun t => (t.fault, t.rsp, t.inputs)) = some (false, none, [.command 0#48]) := by decide +kernel

/-- The word `withFetchWord` places is the next one executed. -/
theorem test_withFetchWord :
    answer (step (State.reset.withFetchWord 48 0x4020FFFFFFFF)) = some 0x000000000#36 := by decide +kernel

/-! ## Witnesses: states that meet the hypotheses of the statements -/

/-- The invariant holds after SEQINIT with slot 0 new, ended, or at an element of `S(m, k)`. -/
theorem seq_inv {n k : Nat} {m : Word} {x : Cursor} (hn : 1 ≤ n ∧ n ≤ 16) (hk : k ≤ 32)
    (hx : x.cst = .active → k ≤ popcount m ∧ KSubset m k x.cur) : (seq n m k x).Inv := by
  have hm : (seq n m k x).mask = m := mask_of_table (bases_isTable m)
  have hkr : (seq n m k x).kreg.toNat = k := by
    show (BitVec.ofNat 6 k).toNat = k
    rw [BitVec.toNat_ofNat]; omega
  refine ⟨?_, ?_, ?_, by simp [seq], ?_, by simp [seq, built, fresh, State.resetOf], by simp [seq, built, fresh, State.resetOf],
    by simp [seq, built, fresh, State.resetOf]⟩
  · simpa [State.ncur, seq, fresh, State.resetOf] using hn
  · intro _
    rw [hm]
    exact bases_isTable m
  · intro _
    rw [hm, hkr]
    exact ⟨rfl, hk, by simp [seq, emptyFlag]⟩
  · intro y hy ha
    have hy' : y = isNew ∨ y = x := by
      rcases List.mem_or_eq_of_mem_set hy with h | h
      · exact .inl (List.eq_of_mem_replicate h)
      · exact .inr h
    rcases hy' with rfl | rfl
    · cases ha
    · rw [hm, hkr]
      obtain ⟨h1, h2⟩ := hx ha
      exact ⟨by simp [seq, emptyFlag]; omega, h2⟩

theorem built_inv {n : Nat} {m : Word} (check : Bool) (hn : 1 ≤ n ∧ n ≤ 16) : (built n check m).Inv := by
  have hm : (built n check m).mask = m := mask_of_table (bases_isTable m)
  refine ⟨?_, ?_, ?_, ?_, ?_, ?_, ?_, ?_⟩
  · simpa [State.ncur, built, fresh, State.resetOf] using hn
  · intro _
    rw [hm]
    exact bases_isTable m
  all_goals simp [built, fresh, State.resetOf]

theorem fresh_inv {n : Nat} (check : Bool) (hn : 1 ≤ n ∧ n ≤ 16) : (fresh n check).Inv := by
  refine ⟨by simpa [State.ncur, fresh, State.resetOf] using hn, ?_, ?_, ?_, ?_, ?_, ?_, ?_⟩ <;>
    simp [fresh, State.resetOf]

/-- A field of the next state, said of the next state. -/
theorem of_next? {α : Type} {r : Result} {f : State → α} {a : α} (h : (next? r).map f = some a) : ∃ t, r = .next t ∧ f t = a := by
  unfold next? at h
  split at h
  · exact ⟨_, rfl, Option.some.inj h⟩
  · cases h
  · cases h

/-- An invariant state with a sequence, slot 0 at its second value. -/
theorem running_inv : (seq 2 0xB#32 2 (activeAt 0x9#32)).Inv := seq_inv (by decide) (by decide) (by decide +kernel)

theorem test_witness_DecodeOfEncode :
    ∀ i ∈ [Instr.build 0#32, .rdtab 63, .advance 63 0#32, .seqinit 0#32 63, .curnew 15, .next 15, .rdstat 15], i.wf = true := by
  decide

theorem test_witness_EncodeOfDecode : decode 0x203F00000000#48 = .ok (.rdtab 63) ∧ decode 0x7F0000000000#48 = .ok (.rdstat 15) := by
  decide

theorem test_witness_DecodeFollowsOpcodeTable :
    0x303F00000001#48 &&& 0xFFC000000000#48 = 0x300000000000#48 ∧ decode 0x303F00000001#48 = .ok (.advance 63 1#32) ∧
    0x5F0000000000#48 &&& 0xF0FFFFFFFFFF#48 = 0x500000000000#48 ∧ decode 0x5F0000000000#48 = .ok (.curnew 15) := by decide

theorem test_witness_StepRunsDecodedCommand :
    (presentCommand 0x6F0000000000#48 (fresh 2 false)).inputs = [.command 0x6F0000000000#48] ∧
    (presentCommand 0x6F0000000000#48 (fresh 2 false)).rsp = none ∧
    (presentCommand 0x6F0000000000#48 (fresh 2 false)).fault = false ∧ decode 0x6F0000000000#48 = .ok (.next 15) := by
  decide +kernel

/-- `OP` 0, 8 and 15. -/
theorem test_witness_IllegalOpcodeFaults :
    (fresh 2 false).fault = false ∧
    HasIllegalOp 0x0FFFFFFFFFFF#48 ∧ HasIllegalOp 0x800000000000#48 ∧ HasIllegalOp 0xFFFFFFFFFFFF#48 ∧
    ¬ HasIllegalOp 0x100000000000#48 ∧ ¬ HasIllegalOp 0x7FFFFFFFFFFF#48 := by decide +kernel

/-- Each must-be-zero field at its smallest nonzero value, in each format; a legal word has none. -/
theorem test_witness_BadFieldFaults :
    ([0x110000000000#48, 0x104000000000#48, 0x100100000000#48, 0x210000000000#48, 0x204000000000#48, 0x200000000001#48,
      0x310000000000#48, 0x304000000000#48, 0x410000000000#48, 0x404000000000#48, 0x504000000000#48, 0x500100000000#48,
      0x500000000001#48, 0x604000000000#48, 0x700000000001#48].all fun w => HasBadField w) ∧
    ([0x1000FFFFFFFF#48, 0x203F00000000#48, 0x303FFFFFFFFF#48, 0x403FFFFFFFFF#48, 0x5F0000000000#48,
      0x6F0000000000#48, 0x7F0000000000#48].all fun w => ¬ HasBadField w) := by decide +kernel

theorem test_witness_FaultedBlockOnlyAnswersFault : (faulted .noTable).fault = true ∧ (faulted .precond).fault = true := by
  decide

/-- One state for each of the four clauses; the held command with nothing after it and with another command after it. -/
theorem test_witness_HostWaitsAndTakesResponses :
    (fresh 2 false).inputs = [] ∧
    (∀ rest ∈ [[], [HostInput.command 1#48, .command 2#48]], ∃ s : State, s.inputs = .command 0#48 :: rest ∧
      s.rsp = some 0#36 ∧ (∀ more, rest ≠ .takeResponse :: more) ∧ ∀ more, rest ≠ .reset :: more) ∧
    (∃ s : State, s.inputs = [.takeResponse] ∧ s.rsp = some 0#36) ∧
    ∃ s : State, s.inputs = [.command 0#48, .takeResponse] ∧ s.rsp = some 0#36 :=
  ⟨rfl, fun rest h => ⟨{ fresh 2 false with inputs := .command 0#48 :: rest, rsp := some 0#36 }, rfl, rfl, by simp at h; aesop⟩,
    ⟨{ fresh 2 false with inputs := [.takeResponse], rsp := some 0#36 }, rfl, rfl⟩,
    ⟨{ fresh 2 false with inputs := [.command 0#48, .takeResponse], rsp := some 0#36 }, rfl, rfl⟩⟩

/-- The three ways to a state after reset; the third from a faulted block. -/
theorem test_witness_ResetGivesResetValues :
    (∃ c : Config, fresh 16 true = State.resetOf c) ∧ ∃ s t : State, s.fault = true ∧ t = applyReset s :=
  ⟨⟨_, rfl⟩, faulted .precond, _, rfl, rfl⟩

/-- A reset, with and without a command held. -/
theorem test_witness_ResetLeavesBlockReady :
    resetsNow { fresh 2 false with inputs := [.reset] } = true ∧
    resetsNow { fresh 2 false with inputs := [.command 0#48, .reset], rsp := some 0#36 } = true ∧
    resetsNow { fresh 2 false with inputs := [.command 0#48, .reset] } = false := by decide +kernel

theorem test_witness_ResetMeetsInvariant :
    Config.wf { ncur := 1, debugCheck := false } ∧ Config.wf { ncur := 16, debugCheck := true } := by decide

theorem test_witness_EveryStepKeepsInvariant :
    ∃ s t : State, s.Inv ∧ s.sv = true ∧ step s = .next t := ⟨seq 2 0xB#32 2 (activeAt 0x9#32), _, running_inv, rfl, rfl⟩

/-- A table that is valid, a block that is faulted. -/
theorem test_witness_OnlyResetClearsTableValidAndFault :
    (∃ s t : State, step s = .next t ∧ resetsNow s = false ∧ s.tv = true) ∧
    ∃ s t : State, step s = .next t ∧ resetsNow s = false ∧ s.fault = true :=
  ⟨⟨built 2 false 0#32, _, rfl, rfl, rfl⟩, ⟨faulted .noSeq, _, rfl, rfl, rfl⟩⟩

theorem test_witness_ConfigurationNeverChanges : ∃ s t : State, s.ncur = 16 ∧ s.debugCheck = true ∧ step s = .next t :=
  ⟨{ fresh 16 true with inputs := [.reset] }, _, rfl, rfl, rfl⟩

/-- A fault of the decoder and a fault of a command. -/
theorem test_witness_FaultsArePrecise :
    (fresh 2 false).fault = false ∧
    (∃ t, transact 0x000000000000#48 (fresh 2 false) = .next t ∧ t.fault = true) ∧
    ∃ t, transact 0x202100000000#48 (fresh 2 false) = .next t ∧ t.fault = true :=
  ⟨rfl, of_next? (f := fun t => t.fault) (by decide +kernel), of_next? (f := fun t => t.fault) (by decide +kernel)⟩

/-- Every fault a command can raise, raised. -/
theorem test_witness_CommandsRaiseOnlyTheirFaults :
    ∀ p ∈ [(Instr.rdtab 33, fresh 2 false), (.advance 0 0#32, fresh 2 false), (.advance 1 0#32, built 2 true 0#32),
      (.seqinit 0#32 63, fresh 2 false), (.curnew 0, fresh 2 false), (.next 2, fresh 2 false), (.rdstat 2, fresh 2 false)],
      ∃ t, p.2.fault = false ∧ exec p.1 p.2 = .next t ∧ t.fault = true := by
  intro p hp
  have : p.2.fault = false ∧ (next? (exec p.1 p.2)).map (fun t => t.fault) = some true := by
    revert p
    decide +kernel
  obtain ⟨t, h1, h2⟩ := of_next? this.2
  exact ⟨t, this.1, h1, h2⟩

/-- Every test fails first on some word, and a word that fails none; boundary values where the tests meet. -/
theorem test_witness_FirstFailingTestDecides :
    firstFault (fresh 2 false) 0x8021FFFFFFFF#48 = some .illegalOp ∧
    firstFault (fresh 2 false) 0x202100000001#48 = some .badField ∧
    firstFault (fresh 2 false) 0x302100000000#48 = some .countRange ∧
    firstFault (fresh 2 false) 0x620000000000#48 = some .badCid ∧
    firstFault (fresh 2 false) 0x302000000000#48 = some .noTable ∧
    firstFault (fresh 2 false) 0x510000000000#48 = some .noSeq ∧
    firstFault (built 2 true 0xB#32) 0x300200000001#48 = some .precond ∧
    firstFault (built 2 true 0xB#32) 0x300200000003#48 = none := by decide +kernel

/-- Both clauses at the boundary: 33 faults, 32 completes. -/
theorem test_witness_CountRangeFaults :
    (fresh 2 false).fault = false ∧ 32 < 33 ∧
    ∃ t, exec (.seqinit 0#32 32) { built 2 false 0#32 with fault := false } = .next t ∧ t.fault = false := by
  have : (next? (exec (.seqinit 0#32 32) { built 2 false 0#32 with fault := false })).map (fun t => t.fault) = some false := by
    decide +kernel
  obtain ⟨t, h1, h2⟩ := of_next? this
  exact ⟨rfl, by decide, t, h1, h2⟩

/-- The first slot number beyond; and with 16 slots a fault that is not `BAD_CID`. -/
theorem test_witness_BadCidFaults :
    (fresh 1 false).ncur ≤ 1 ∧ (fresh 1 false).fault = false ∧
    ∃ t, (fresh 16 false).ncur = 16 ∧ (Instr.next 15).wf = true ∧ exec (.next 15) (fresh 16 false) = .next t ∧ t.fault = true := by
  have : (next? (exec (.next 15) (fresh 16 false))).map (fun t => t.fault) = some true := by decide +kernel
  obtain ⟨t, h1, h2⟩ := of_next? this
  exact ⟨by decide, rfl, t, by decide, rfl, h1, h2⟩

theorem test_witness_NoTableFaults : (fresh 2 false).fault = false ∧ 32 ≤ 32 ∧ (fresh 2 false).tv = false := by decide

theorem test_witness_NoSequenceFaults :
    (built 2 false 0#32).fault = false ∧ 1 < (built 2 false 0#32).ncur ∧ (built 2 false 0#32).sv = false := by decide +kernel

theorem test_witness_PrecondFaults :
    (built 2 true 0xB#32).fault = false ∧ (built 2 true 0xB#32).tv = true ∧ (built 2 true 0xB#32).debugCheck = true ∧
    popcount 0x1#32 ≠ 2 ∧
    ∃ t, exec (.advance 2 0x1#32) (built 2 true 0xB#32) = .next t ∧ t.fault = true ∧ t.fcode = 7#4 := by
  have : (next? (exec (.advance 2 0x1#32) (built 2 true 0xB#32))).map (fun t => (t.fault, t.fcode)) = some (true, 7#4) := by
    decide +kernel
  obtain ⟨t, h1, h2⟩ := of_next? this
  exact ⟨rfl, rfl, rfl, by decide +kernel, t, h1, by simpa using h2⟩

/-- BUILD: a faulted and an unfaulted block. -/
theorem test_witness_BuildResult : (faulted .badCid).fault = true ∧ (fresh 2 false).fault = false := by decide

theorem test_witness_BuiltTableIsTableOfMask :
    (fresh 2 false).fault = false ∧ (32 : Nat) ≤ 32 ∧ popcount 0xFFFFFFFF#32 ≤ 32 ∧ popcount 0#32 ≤ 0 := by decide +kernel

/-- Entries 0, `popcount` and 32. -/
theorem test_witness_TableEntriesAreSmallestSubsets :
    (built 2 false 0xB#32).Inv ∧ (built 2 false 0xB#32).tv = true ∧ 3 ≤ popcount (built 2 false 0xB#32).mask ∧ 32 ≤ 32 :=
  ⟨built_inv false (by decide), rfl, by decide +kernel, by decide⟩

/-- RDTAB: its clauses at 63, 33, 32, 0 and `popcount(mask)`. -/
theorem test_witness_RdtabResult :
    (faulted .badCid).fault = true ∧ 63 < 64 ∧ 32 < 33 ∧ (fresh 2 false).tv = false ∧
    (built 2 false 0xB#32).fault = false ∧ (built 2 false 0xB#32).tv = true ∧ (built 2 false 0xB#32).Inv ∧
    popcount (built 2 false 0xB#32).mask ≤ 3 :=
  ⟨rfl, by decide, by decide, rfl, rfl, rfl, built_inv false (by decide), by decide +kernel⟩

/-- ADVANCE: each of its clauses has operands and a state; the least and the greatest element of the set among those in contract. -/
theorem test_witness_AdvanceResult :
    (faulted .badCid).fault = true ∧ 32 < 33 ∧ (fresh 2 false).tv = false ∧
    ((built 2 true 0xB#32).debugCheck = true ∧ popcount 0x1#32 ≠ 2) ∧
    (SubsetOf 0x3#32 (readTable (built 2 false 0xB#32).table 32) ∧ popcount 0x3#32 = 2) ∧
    (SubsetOf 0xA#32 (readTable (built 2 false 0xB#32).table 32) ∧ popcount 0xA#32 = 2) ∧
    ((built 2 false 0xB#32).debugCheck = false ∧ ¬ (SubsetOf 0x1#32 (readTable (built 2 false 0xB#32).table 32) ∧ popcount 0x1#32 = 2)) ∧
    (popcount 0x6#32 = 2 ∧ ¬ (SubsetOf 0x6#32 (readTable (built 2 true 0xB#32).table 32) ∧ popcount 0x6#32 = 2)) := by
  decide +kernel

/-- `k = 32` with all bits set, and `k = 0`. -/
theorem test_witness_AdvanceComputesFormula :
    (built 2 false 0xFFFFFFFF#32).fault = false ∧ (built 2 false 0xFFFFFFFF#32).tv = true ∧
    (SubsetOf 0xFFFFFFFF#32 (readTable (built 2 false 0xFFFFFFFF#32).table 32) ∧ popcount 0xFFFFFFFF#32 = 32) ∧
    (SubsetOf 0#32 (readTable (built 2 false 0xFFFFFFFF#32).table 32) ∧ popcount 0#32 = 0) := by decide +kernel

/-- The least element, which has a next one, and the greatest. -/
theorem test_witness_AdvanceAnswersNextSubset :
    (built 2 false 0xB#32).Inv ∧ (built 2 false 0xB#32).fault = false ∧ (built 2 false 0xB#32).tv = true ∧
    KSubset (built 2 false 0xB#32).mask 2 0x3#32 ∧ KSubset (built 2 false 0xB#32).mask 2 0xA#32 :=
  ⟨built_inv false (by decide), rfl, rfl, by decide +kernel, by decide +kernel⟩

theorem test_witness_AdvanceCyclesThroughAllSubsets :
    (built 2 false 0xB#32).Inv ∧ (built 2 false 0xB#32).fault = false ∧ (built 2 false 0xB#32).tv = true ∧
    0 ≤ popcount (built 2 false 0xB#32).mask ∧ 3 ≤ popcount (built 2 false 0xB#32).mask :=
  ⟨built_inv false (by decide), rfl, rfl, by decide +kernel, by decide +kernel⟩

/-- Out of contract by the population, and by the subset condition with the debug check on. -/
theorem test_witness_AdvanceOutOfContractAnswersSomething :
    ((built 2 false 0xB#32).tv = true ∧ (built 2 false 0xB#32).debugCheck = false ∧
      ¬ (SubsetOf 0x1#32 (readTable (built 2 false 0xB#32).table 32) ∧ popcount 0x1#32 = 2)) ∧
    ((built 2 true 0xB#32).tv = true ∧ popcount 0x6#32 = 2 ∧
      ¬ (SubsetOf 0x6#32 (readTable (built 2 true 0xB#32).table 32) ∧ popcount 0x6#32 = 2)) := by decide +kernel

theorem test_witness_SeqinitResult :
    (faulted .badCid).fault = true ∧ (fresh 2 false).fault = false ∧ (63 < 64) ∧ (32 < 33) ∧ (32 : Nat) ≤ 32 := by decide

/-- CURNEW: a faulted block, the first slot beyond, no sequence, the last slot with a sequence. -/
theorem test_witness_CurnewResult :
    (faulted .badCid).fault = true ∧ (fresh 2 false).ncur ≤ 2 ∧ (1 < (fresh 2 false).ncur ∧ (fresh 2 false).sv = false) ∧
    ((seq 2 0xB#32 2 isNew).fault = false ∧ (seq 2 0xB#32 2 isNew).sv = true ∧
      (seq 2 0xB#32 2 isNew).cursors[1]? = some isNew) := by decide +kernel

/-- NEXT: as CURNEW, and each arm: empty, new, active with a greater candidate, active at the greatest, done. -/
theorem test_witness_NextResult :
    (faulted .badCid).fault = true ∧ (fresh 2 false).ncur ≤ 2 ∧ (1 < (fresh 2 false).ncur ∧ (fresh 2 false).sv = false) ∧
    (seq 2 0x7#32 4 isNew).empty = true ∧
    ((seq 2 0xB#32 2 isNew).empty = false ∧ (seq 2 0xB#32 2 isNew).sv = true ∧ (seq 2 0xB#32 2 isNew).cursors[0]? = some isNew) ∧
    (0x3#32 < adv (seq 2 0xB#32 2 (activeAt 0x3#32)).table (seq 2 0xB#32 2 (activeAt 0x3#32)).kreg.toNat 0x3#32) ∧
    (¬ 0xA#32 < adv (seq 2 0xB#32 2 (activeAt 0xA#32)).table (seq 2 0xB#32 2 (activeAt 0xA#32)).kreg.toNat 0xA#32) ∧
    (seq 2 0xB#32 2 isDone).cursors[0]? = some isDone := by decide +kernel

/-- A new cursor, an active one, and an active one at the greatest element. -/
theorem test_witness_NextYieldsSubsetsInOrder :
    ∀ x ∈ [isNew, activeAt 0x9#32, activeAt 0xA#32],
      (seq 2 0xB#32 2 x).Inv ∧ (seq 2 0xB#32 2 x).fault = false ∧ (seq 2 0xB#32 2 x).sv = true ∧
      (seq 2 0xB#32 2 x).empty = false ∧ (seq 2 0xB#32 2 x).cursors[0]? = some x := by
  intro x hx
  refine ⟨seq_inv (by decide) (by decide) ?_, rfl, rfl, rfl, rfl⟩
  revert x
  decide +kernel

/-- A sequence of three elements, and an empty one. -/
theorem test_witness_TraversalYieldsAllSubsets :
    ∀ p ∈ [(0xB#32, 2), (0x7#32, 4)],
      (seq 2 p.1 p.2 isNew).Inv ∧ (seq 2 p.1 p.2 isNew).fault = false ∧ (seq 2 p.1 p.2 isNew).sv = true ∧
      (seq 2 p.1 p.2 isNew).cursors[0]? = some isNew ∧ isNew.cst = .new := by
  intro p hp
  refine ⟨seq_inv (by decide) ?_ (by simp [isNew]), rfl, rfl, rfl, rfl⟩
  revert p
  decide

/-- NEXT on slot 0 with a NEXT on slot 1 and an RDTAB between. -/
theorem test_witness_InterleavedTraversalIsUnaffected :
    (seq 2 0xB#32 2 isNew).Inv ∧ (seq 2 0xB#32 2 isNew).cursors[0]? = some isNew ∧
    (∀ i ∈ [Instr.next 0, .next 1, .rdtab 2, .next 0], i.wf = true ∧ (i = .next 0 ∨ LeavesSlot 0 i)) ∧
    ∃ t rs, run (seq 2 0xB#32 2 isNew) ([Instr.next 0, .next 1, .rdtab 2, .next 0].map encode) = some (t, rs) ∧
      t.fault = false := by
  have : (run (seq 2 0xB#32 2 isNew) ([Instr.next 0, .next 1, .rdtab 2, .next 0].map encode)).map (fun p => p.1.fault) =
      some false := by decide +kernel
  refine ⟨seq_inv (by decide) (by decide) (by simp [isNew]), rfl, by simp [Instr.wf, LeavesSlot], ?_⟩
  obtain ⟨⟨t, rs⟩, h1, h2⟩ := Option.map_eq_some_iff.mp this
  exact ⟨t, rs, h1, h2⟩

theorem test_witness_RdstatResult :
    (faulted .badCid).fault = true ∧ (fresh 2 false).ncur ≤ 2 ∧ (15 < 16) ∧
    ((fresh 16 false).fault = false ∧ (fresh 16 false).cursors[15]? = some isNew) := by decide +kernel

/-- With a table and without. -/
theorem test_witness_StatusWithoutSequenceShowsTableValidOnly :
    ((fresh 2 false).Inv ∧ (fresh 2 false).fault = false ∧ (fresh 2 false).sv = false ∧ 1 < (fresh 2 false).ncur) ∧
    ((built 2 false 0xB#32).Inv ∧ (built 2 false 0xB#32).fault = false ∧ (built 2 false 0xB#32).sv = false ∧
      1 < (built 2 false 0xB#32).ncur) :=
  ⟨⟨fresh_inv false (by decide), rfl, rfl, by decide⟩, ⟨built_inv false (by decide), rfl, rfl, by decide⟩⟩

/-- A read that completes and one that faults, for each of the three. -/
theorem test_witness_ReadingCommandsFrame :
    ∀ p ∈ [(Instr.rdtab 2, false), (.rdtab 33, true), (.advance 2 0x3#32, false), (.advance 2 0x1#32, false),
      (.advance 33 0#32, true), (.rdstat 0, false), (.rdstat 2, true)],
      ∃ t, exec p.1 (built 2 false 0xB#32) = .next t ∧ t.fault = p.2 := by
  intro p hp
  refine of_next? ?_
  revert p
  decide +kernel

theorem test_witness_CursorCommandsFrame :
    ∀ p ∈ [(Instr.curnew 0, false), (.curnew 2, true), (.next 0, false), (.next 2, true)],
      ∃ t, exec p.1 (seq 2 0xB#32 2 (activeAt 0x9#32)) = .next t ∧ t.fault = p.2 := by
  intro p hp
  refine of_next? ?_
  revert p
  decide +kernel

theorem test_witness_BuildingCommandsFrame :
    ∀ p ∈ [(Instr.build 0x1#32, false), (.seqinit 0x1#32 32, false), (.seqinit 0x1#32 33, true)],
      ∃ t, exec p.1 (seq 2 0xB#32 2 (activeAt 0x9#32)) = .next t ∧ t.fault = p.2 := by
  intro p hp
  refine of_next? ?_
  revert p
  decide +kernel

theorem test_witness_OnlyBuildersWriteTable :
    ∃ s t : State, step s = .next t ∧ resetsNow s = false ∧ t.table ≠ s.table := by
  have : (next? (step (presentCommand 0x100000000001#48 (fresh 2 false)))).map
      (fun t => decide (readTable t.table 1 = readTable (fresh 2 false).table 1)) = some false := by decide +kernel
  obtain ⟨t, h1, h2⟩ := of_next? this
  refine ⟨presentCommand 0x100000000001#48 (fresh 2 false), t, h1, rfl, fun h => ?_⟩
  rw [h] at h2
  exact absurd h2 (by decide +kernel)

theorem test_witness_OnlyNextAnswersEnd :
    ∃ t, exec (.next 0) (seq 2 0xB#32 2 isDone) = .next t ∧ t.rsp = some (0x1#4 ++ 0#32) :=
  of_next? (f := fun t => t.rsp) (by decide +kernel)

/-- Each of the five, on a block with a sequence. -/
theorem test_witness_RepeatedCommandChangesNothing :
    ∀ i ∈ [Instr.build 0x1#32, .rdtab 32, .seqinit 0x1#32 1, .curnew 0, .rdstat 1],
      ∃ t, exec i (seq 2 0xB#32 2 (activeAt 0x9#32)) = .next t ∧ t.fault = false := by
  intro i hi
  refine of_next? ?_
  revert i
  decide +kernel

theorem test_witness_StaleTableIsNeverObserved :
    ∃ t, (fresh 2 false).tv = false ∧ (fresh 2 false).sv = false ∧ exec (.rdstat 0) (fresh 2 false) = .next t ∧ t.fault = false := by
  obtain ⟨t, h⟩ := of_next? (r := exec (.rdstat 0) (fresh 2 false)) (f := fun t => t.fault) (a := false) (by decide +kernel)
  exact ⟨t, rfl, rfl, h⟩

theorem test_witness_StaleCursorValueIsNeverObserved :
    ∃ t, exec (.next 0) (seq 2 0xB#32 2 { cst := .new, cur := 0x5#32 }) = .next t ∧ t.fault = false :=
  of_next? (f := fun t => t.fault) (by decide +kernel)

/-- Slots 0 and 1; NEXT on slot 1 leaves slot 0 alone and completes. -/
theorem test_witness_CursorsAreIndependent :
    ∃ t, LeavesSlot 0 (.next 1) ∧ exec (.next 1) (seq 2 0xB#32 2 (activeAt 0x9#32)) = .next t ∧ t.fault = false := by
  obtain ⟨t, h⟩ := of_next? (r := exec (.next 1) (seq 2 0xB#32 2 (activeAt 0x9#32))) (f := fun t => t.fault) (a := false)
    (by decide +kernel)
  exact ⟨t, by decide, h⟩

end Sys2Proof.Tests
end

section
/-! The step of 00_scope.md R13: the presented word's one transaction. -/

namespace Sys2Proof.Proofs
open Sys2Proof.Machine

/-- Settles O6: the accepted word is the step's transaction (`step_of_command`), and an unfaulted transaction is the decoded
command (`transact_of_decode`); presenting the word leaves FAULT as it was. -/
theorem stepRunsDecodedCommand : Obligations.StepRunsDecodedCommand := by
  intro s w rest hin hr
  have hstep : step s = transact w { s with inputs := rest } := step_of_command hin hr
  exact ⟨hstep, fun i hf hd => hstep.trans (transact_of_decode hf hd)⟩

end Sys2Proof.Proofs
end

section
/-! What a command can do, in one lemma for all seven: it answers for a faulted block, raises a fault of its list, or completes. -/

namespace Sys2Proof.Proofs
open Sys2Proof.Machine

/-- `Completes s i t`: past its tests, command `i` takes `s` to `t`, one constructor per arm of its rule. -/
inductive Completes (s : State) : Instr → State → Prop
  /-- 40_table_builder.md R101. -/
  | build (mask : Word) : Completes s (.build mask) (respond .ok 0#32
      { s with
        table := bases mask, tv := true, sv := false, kreg := 0#6, empty := false, cursors := renewAll s.cursors })
  /-- 40_table_builder.md R105. -/
  | rdtab (j : Nat) : Completes s (.rdtab j) (respond .ok (readTable s.table j) s)
  /-- 41_advance.md R120, in contract. -/
  | advance (k : Nat) (current : Word) : Completes s (.advance k current) (respond .ok (adv s.table k current) s)
  /-- 41_advance.md R128, out of contract. -/
  | advanceFree (k : Nat) (current : Word) (hout : ¬ InContract s.table k current) :
      Completes s (.advance k current) (respondFree s)
  /-- 42_sequence.md R141. -/
  | seqinit (mask : Word) (k : Nat) (hk : k ≤ 32) : Completes s (.seqinit mask k) (respond .ok 0#32
      { s with
        table := bases mask, tv := true, sv := true, kreg := BitVec.ofNat 6 k, empty := emptyFlag mask k
        cursors := renewAll s.cursors })
  /-- 42_sequence.md R144. -/
  | curnew (c : Nat) (hsv : s.sv = true) : Completes s (.curnew c) (respond .ok 0#32 (s.setCst c .new))
  /-- 42_sequence.md R146: the first value of a traversal. -/
  | nextSeed (c : Nat) (hsv : s.sv = true) (hempty : s.empty = false) :
      Completes s (.next c) (respond .ok s.seed (s.setActive c s.seed))
  /-- 42_sequence.md R146: the value after the current one. -/
  | nextValue (c : Nat) (hc : c < s.ncur) (hsv : s.sv = true) (hactive : (s.slot c).cst = .active) :
      Completes s (.next c) (respond .ok (adv s.table s.kreg.toNat (s.slot c).cur)
        (s.setActive c (adv s.table s.kreg.toNat (s.slot c).cur)))
  /-- 42_sequence.md R146: the traversal ends, at once on an empty sequence. -/
  | nextEnd (c : Nat) (hsv : s.sv = true) : Completes s (.next c) (respond .ended 0#32 (s.setCst c .done))
  /-- 42_sequence.md R146: the traversal had ended. -/
  | nextDone (c : Nat) : Completes s (.next c) (respond .ended 0#32 s)
  /-- 43_status.md R170. -/
  | rdstat (c : Nat) : Completes s (.rdstat c) (respond .ok (statusWord s c) s)

/-- Everything a command can do. A fault it raises is in its list of 60_exceptions.md R182, and `PRECOND` needs
`DEBUG_CHECK` (R192). -/
theorem exec_cases {i : Instr} {s t : State} (h : exec i s = .next t) :
    (s.fault = true ∧ t = answerFaulted s) ∨
    (s.fault = false ∧ ∃ e ∈ mayRaise i, (e = .precond → s.debugCheck = true) ∧ t = raiseFault e s) ∨
    (s.fault = false ∧ Completes s i t) := by
  cases i with
  | build mask =>
    obtain h | ⟨hf, rfl⟩ := execBuild_cases h
    · exact .inl h
    · exact .inr (.inr ⟨hf, .build mask⟩)
  | rdtab j =>
    obtain h | ⟨hf, -, rfl⟩ | ⟨hf, -, -, rfl⟩ | ⟨hf, -, -, rfl⟩ := execRdtab_cases h
    · exact .inl h
    · exact .inr (.inl ⟨hf, .countRange, by simp [mayRaise], nofun, rfl⟩)
    · exact .inr (.inl ⟨hf, .noTable, by simp [mayRaise], nofun, rfl⟩)
    · exact .inr (.inr ⟨hf, .rdtab j⟩)
  | advance k current =>
    obtain h | ⟨hf, -, rfl⟩ | ⟨hf, -, -, rfl⟩ | ⟨hf, -, -, hd, -, rfl⟩ | ⟨hf, -, -, -, rfl⟩ | ⟨hf, -, -, hout, -, rfl⟩ :=
      execAdvance_cases h
    · exact .inl h
    · exact .inr (.inl ⟨hf, .countRange, by simp [mayRaise], nofun, rfl⟩)
    · exact .inr (.inl ⟨hf, .noTable, by simp [mayRaise], nofun, rfl⟩)
    · exact .inr (.inl ⟨hf, .precond, by simp [mayRaise], fun _ => hd, rfl⟩)
    · exact .inr (.inr ⟨hf, .advance k current⟩)
    · exact .inr (.inr ⟨hf, .advanceFree k current hout⟩)
  | seqinit mask k =>
    obtain h | ⟨hf, -, rfl⟩ | ⟨hf, hk, rfl⟩ := execSeqinit_cases h
    · exact .inl h
    · exact .inr (.inl ⟨hf, .countRange, by simp [mayRaise], nofun, rfl⟩)
    · exact .inr (.inr ⟨hf, .seqinit mask k hk⟩)
  | curnew c =>
    obtain h | ⟨hf, -, rfl⟩ | ⟨hf, -, -, rfl⟩ | ⟨hf, -, hs, rfl⟩ := execCurnew_cases h
    · exact .inl h
    · exact .inr (.inl ⟨hf, .badCid, by simp [mayRaise], nofun, rfl⟩)
    · exact .inr (.inl ⟨hf, .noSeq, by simp [mayRaise], nofun, rfl⟩)
    · exact .inr (.inr ⟨hf, .curnew c hs⟩)
  | next c =>
    obtain h | ⟨hf, -, rfl⟩ | ⟨hf, -, -, rfl⟩ | ⟨hf, -, hs, -, rfl⟩ | ⟨hf, hc, hs, he, rfl⟩ := execNext_cases h
    · exact .inl h
    · exact .inr (.inl ⟨hf, .badCid, by simp [mayRaise], nofun, rfl⟩)
    · exact .inr (.inl ⟨hf, .noSeq, by simp [mayRaise], nofun, rfl⟩)
    · exact .inr (.inr ⟨hf, .nextEnd c hs⟩)
    · refine .inr (.inr ⟨hf, ?_⟩)
      obtain ⟨-, hp⟩ | ⟨ha, -, hp⟩ | ⟨-, -, hp⟩ | ⟨-, hp⟩ := pull_cases c s
      · exact hp ▸ .nextSeed c hs he
      · exact hp ▸ .nextValue c hc hs ha
      · exact hp ▸ .nextEnd c hs
      · exact hp ▸ .nextDone c
  | rdstat c =>
    obtain h | ⟨hf, -, rfl⟩ | ⟨hf, -, rfl⟩ := execRdstat_cases h
    · exact .inl h
    · exact .inr (.inl ⟨hf, .badCid, by simp [mayRaise], nofun, rfl⟩)
    · exact .inr (.inr ⟨hf, .rdstat c⟩)

end Sys2Proof.Proofs
end

section
/-! The invariant of the block: after a reset, under each shared operation, and over a step. -/

namespace Sys2Proof.Proofs
open Sys2Proof.Machine

/-- The state after reset of a block of any configuration meets the invariant. -/
theorem inv_resetOf {c : Config} (hc : c.wf) : (State.resetOf c).Inv where
  slots := by simpa [State.ncur, State.resetOf] using hc
  table := nofun
  sequence := nofun
  noSequence _ := ⟨rfl, rfl, fun x hx => by rw [List.eq_of_mem_replicate hx]⟩
  active x hx ha := by
    rw [List.eq_of_mem_replicate hx] at ha
    cases ha
  faultCode := rfl
  precond _ := by simp [State.resetOf]
  response := nofun

section operations
variable {s : State}

/-- What the host does next and the count of draws are outside the invariant. -/
theorem inv_host (h : s.Inv) (inputs : List HostInput) (draws : Nat) :
    { s with inputs := inputs, draws := draws }.Inv :=
  ⟨h.slots, h.table, h.sequence, h.noSequence, h.active, h.faultCode, h.precond, h.response⟩

theorem inv_applyReset (h : s.Inv) : (applyReset s).Inv :=
  inv_host (inv_resetOf (c := s.config) h.slots) s.inputs s.draws

theorem inv_takeResponse (h : s.Inv) : (takeResponse s).Inv :=
  ⟨h.slots, h.table, h.sequence, h.noSequence, h.active, h.faultCode, h.precond, nofun⟩

theorem inv_answerFaulted (h : s.Inv) (hf : s.fault = true) : (answerFaulted s).Inv where
  __ := h
  response r hr := by
    obtain rfl := Option.some.inj hr
    simp [hf]

theorem one_le_code_le_seven (e : FaultCode) : 1 ≤ e.code.toNat ∧ e.code.toNat ≤ 7 := by
  cases e <;> decide

theorem code_eq_seven_iff (e : FaultCode) : e.code = 7#4 ↔ e = .precond := by
  cases e <;> decide

/-- Raising a fault keeps the invariant, if `PRECOND` is raised under `DEBUG_CHECK` only (60_exceptions.md R192). -/
theorem inv_raiseFault (h : s.Inv) {e : FaultCode} (hd : e = .precond → s.debugCheck = true) : (raiseFault e s).Inv where
  slots := h.slots
  table := h.table
  sequence := h.sequence
  noSequence := h.noSequence
  active := h.active
  faultCode := one_le_code_le_seven e
  precond hdc hcode := by
    have hdc' : s.debugCheck = true := hd ((code_eq_seven_iff e).mp hcode)
    exact absurd (hdc'.symm.trans hdc) (by decide)
  response r hr := by
    obtain rfl := Option.some.inj hr
    rfl

/-- An unfaulted block may answer OK with any value. -/
theorem inv_respond_ok (h : s.Inv) (hf : s.fault = false) (v : Word) : (respond .ok v s).Inv where
  __ := h
  response r hr := by
    obtain rfl := Option.some.inj hr
    rw [respond_fault, hf]
    exact .inr ⟨v, rfl⟩

/-- An unfaulted block may answer END with value 0. -/
theorem inv_respond_ended (h : s.Inv) (hf : s.fault = false) : (respond .ended 0#32 s).Inv where
  __ := h
  response r hr := by
    obtain rfl := Option.some.inj hr
    rw [respond_fault, hf]
    exact .inl rfl

/-- With a sequence, a slot may be given any cursor that is not active, or an active one with a value of `S(T[32], KREG)` on a
sequence that is not empty (10_state.md R29). -/
theorem inv_setCursor (h : s.Inv) (hsv : s.sv = true) (c : Nat) {x : Cursor}
    (hx : x.cst = .active → s.empty = false ∧ KSubset s.mask s.kreg.toNat x.cur) :
    { s with cursors := s.cursors.set c x }.Inv where
  slots := by simpa [State.ncur] using h.slots
  table := h.table
  sequence := h.sequence
  noSequence hno := absurd (hsv.symm.trans hno) (by decide)
  active y hy ha := by
    obtain hy | rfl := List.mem_or_eq_of_mem_set hy
    · exact h.active y hy ha
    · exact hx ha
  faultCode := h.faultCode
  precond := h.precond
  response := h.response

/-- Building the table with every cursor new keeps the invariant, if the sequence's registers fit the new mask. -/
theorem inv_built (h : s.Inv) (mask : Word) {sv empty : Bool} {kreg : BitVec 6}
    (hseq : sv = true → kreg.toNat ≤ 32 ∧ (empty = true ↔ popcount mask < kreg.toNat))
    (hno : sv = false → kreg = 0#6 ∧ empty = false) :
    { s with
      table := bases mask, tv := true, sv := sv, kreg := kreg, empty := empty, cursors := renewAll s.cursors }.Inv := by
  have htable : IsTableOf (bases mask) mask := bases_isTable mask
  have hmask : readTable (bases mask) 32 = mask := mask_of_table htable
  exact
    { slots := by simpa [State.ncur] using h.slots
      table := fun _ => by simpa only [State.mask, hmask] using htable
      sequence := fun hs => ⟨rfl, by simpa only [State.mask, hmask] using hseq hs⟩
      noSequence := fun hs => ⟨(hno hs).1, (hno hs).2, fun _ => mem_renewAll⟩
      active := fun x hx ha => absurd ((mem_renewAll hx).symm.trans ha) (by decide)
      faultCode := h.faultCode
      precond := h.precond
      response := h.response }

/-- The invariant's base table of a block with a sequence (10_state.md R22, R26). -/
theorem isTableOf_of_sv (h : s.Inv) (hsv : s.sv = true) : IsTableOf s.table s.mask :=
  h.table (h.sequence hsv).1

/-- The seed of a sequence that is not empty is in `S(T[32], KREG)` (42_sequence.md R143). -/
theorem kSubset_seed (h : s.Inv) (hsv : s.sv = true) (hempty : s.empty = false) :
    KSubset s.mask s.kreg.toNat s.seed := by
  obtain ⟨-, -, hiff⟩ := h.sequence hsv
  have hk : s.kreg.toNat ≤ popcount s.mask := by
    by_contra hlt
    simp [hiff.mpr (Nat.lt_of_not_le hlt)] at hempty
  exact (entry_isLeast (isTableOf_of_sv h hsv) hk).1

/-- `adv` stays in `S(m, k)`, whether it steps or wraps (41_advance.md R126). -/
theorem kSubset_adv {t : Table} {m u : Word} {k : Nat} (ht : IsTableOf t m) (hu : KSubset m k u) :
    KSubset m k (adv t k u) := by
  obtain hnext | ⟨-, hleast⟩ := adv_spec ht hu
  · exact hnext.1
  · exact hleast.1

end operations

theorem completes_inv {i : Instr} {s t : State} (h : s.Inv) (hf : s.fault = false) (hc : Completes s i t) : t.Inv := by
  cases hc with
  | build mask => exact inv_respond_ok (inv_built h mask (sv := false) nofun fun _ => ⟨rfl, rfl⟩) hf _
  | rdtab => exact inv_respond_ok h hf _
  | advance => exact inv_respond_ok h hf _
  | advanceFree => exact inv_respond_ok (inv_host h s.inputs (s.draws + 1)) hf _
  | seqinit mask k hk =>
    have hkreg : (BitVec.ofNat 6 k).toNat = k := by rw [BitVec.toNat_ofNat]; omega
    exact inv_respond_ok (inv_built h mask (sv := true) (fun _ => by simp [hkreg, hk, emptyFlag]) nofun) hf _
  | curnew c hsv => exact inv_respond_ok (inv_setCursor h hsv c (by simp)) hf _
  | nextSeed c hsv hempty =>
    exact inv_respond_ok (inv_setCursor h hsv c fun _ => ⟨hempty, kSubset_seed h hsv hempty⟩) hf _
  | nextValue c hc hsv hactive =>
    obtain ⟨hempty, hcur⟩ := h.active _ (slot_mem hc) hactive
    have hcand := kSubset_adv (isTableOf_of_sv h hsv) hcur
    exact inv_respond_ok (inv_setCursor h hsv c fun _ => ⟨hempty, hcand⟩) hf _
  | nextEnd c hsv => exact inv_respond_ended (inv_setCursor h hsv c (by simp)) hf
  | nextDone => exact inv_respond_ended h hf
  | rdstat => exact inv_respond_ok h hf _

theorem exec_inv {i : Instr} {s t : State} (h : s.Inv) (he : exec i s = .next t) : t.Inv := by
  obtain ⟨hf, rfl⟩ | ⟨-, e, -, hd, rfl⟩ | ⟨hf, hc⟩ := exec_cases he
  · exact inv_answerFaulted h hf
  · exact inv_raiseFault h hd
  · exact completes_inv h hf hc

theorem transact_inv {w : CommandWord} {s t : State} (h : s.Inv) (ht : transact w s = .next t) : t.Inv := by
  obtain ⟨hf, rfl⟩ | ⟨e, -, -, rfl⟩ | ⟨i, -, -, he⟩ := transact_cases ht
  · exact inv_answerFaulted h hf
  · exact inv_raiseFault h (by cases e <;> nofun)
  · exact exec_inv h he

/-- Settles O16: the four things a step can do (`step_cases`) each keep the invariant. -/
theorem everyStepKeepsInvariant : Obligations.EveryStepKeepsInvariant := by
  intro s t h hstep
  obtain ⟨rfl, -⟩ | ⟨-, more, rfl⟩ | ⟨-, more, rfl⟩ | ⟨-, w, rest, -, -, ht⟩ := step_cases hstep
  · exact h
  · exact inv_applyReset (inv_host h more s.draws)
  · exact inv_takeResponse (inv_host h more s.draws)
  · exact transact_inv (inv_host h rest s.draws) ht

/-- Settles O15: a block of any configuration starts in the invariant, that of the test vectors among them. -/
theorem resetMeetsInvariant : Obligations.ResetMeetsInvariant :=
  ⟨fun _ => inv_resetOf, inv_resetOf (by decide)⟩

/-- The values of the reset table (10_state.md R37), for every configuration. -/
theorem resetOf_values (c : Config) :
    (State.resetOf c).tv = false ∧ (State.resetOf c).sv = false ∧ (State.resetOf c).kreg = 0#6 ∧
    (State.resetOf c).empty = false ∧ (∀ x ∈ (State.resetOf c).cursors, x.cst = .new) ∧
    (State.resetOf c).fault = false ∧ (State.resetOf c).fcode = 0#4 :=
  ⟨rfl, rfl, rfl, rfl, fun x hx => by rw [List.eq_of_mem_replicate hx], rfl, rfl⟩

/-- Settles O13: the three ways into reset give the registers of `State.resetOf`, a reset by the host those of the block's own
configuration. -/
theorem resetGivesResetValues : Obligations.ResetGivesResetValues := by
  rintro t (⟨c, rfl⟩ | rfl | ⟨s, rfl⟩)
  · exact resetOf_values c
  · exact resetOf_values Config.ofVectors
  · exact resetOf_values s.config

/-- The entries of a base table are subsets of the mask (10_state.md R23 a). -/
theorem entry_subset_mask {t : Table} {m : Word} {j : Nat} (h : IsTableOf t m) (hj : j < 33) : SubsetOf (readTable t j) m := by
  refine (subsetOf_iff _ _).mpr fun b hb hv => ?_
  rw [h j hj b hb] at hv
  exact (Bool.and_eq_true_iff.mp hv).1

/-- The entries of a base table grow (10_state.md R23 b). -/
theorem entry_subset_succ {t : Table} {m : Word} {j : Nat} (h : IsTableOf t m) (hj : j < 32) :
    SubsetOf (readTable t j) (readTable t (j + 1)) := by
  refine (subsetOf_iff _ _).mpr fun b hb hv => ?_
  rw [h j (by omega) b hb] at hv
  rw [h (j + 1) (by omega) b hb]
  simp only [Bool.and_eq_true, decide_eq_true_eq] at hv ⊢
  exact ⟨hv.1, by omega⟩

/-- Settles O29: under the invariant `T` is the base table of `T[32]`, and of such a table each part is a lemma. -/
theorem tableEntriesAreSmallestSubsets : Obligations.TableEntriesAreSmallestSubsets := by
  intro s h htv j hj
  have ht : IsTableOf s.table s.mask := h.table htv
  exact ⟨entry_subset_mask ht (by omega), entry_subset_succ ht,
    popcountBelow_of_isLowestBits (ht j (by omega)) le_rfl, entry_isLeast ht⟩

end Sys2Proof.Proofs
end

section
/-! Frames: what the commands and the steps leave unchanged (10_state.md R24, R35, R36). -/

namespace Sys2Proof.Proofs
open Sys2Proof.Machine

section command
variable {i : Instr} {s t : State}

theorem exec_keeps_config (h : exec i s = .next t) : t.config = s.config := by
  obtain ⟨-, rfl⟩ | ⟨-, e, -, -, rfl⟩ | ⟨-, hc⟩ := exec_cases h
  · rfl
  · rfl
  · cases hc <;> simp [State.config, State.ncur]

theorem exec_keeps_inputs (h : exec i s = .next t) : t.inputs = s.inputs := by
  obtain ⟨-, rfl⟩ | ⟨-, e, -, -, rfl⟩ | ⟨-, hc⟩ := exec_cases h
  · rfl
  · rfl
  · cases hc <;> rfl

/-- Only an ADVANCE out of contract draws a free value (41_advance.md R128). -/
theorem exec_draws (h : exec i s = .next t) :
    t.draws = s.draws ∨ ∃ k v, i = .advance k v ∧ ¬ InContract s.table k v := by
  obtain ⟨-, rfl⟩ | ⟨-, e, -, -, rfl⟩ | ⟨-, hc⟩ := exec_cases h
  · exact .inl rfl
  · exact .inl rfl
  · cases hc with
    | advanceFree k v hout => exact .inr ⟨k, v, rfl, hout⟩
    | _ => exact .inl rfl

theorem completes_keeps_fault (hc : Completes s i t) : t.fault = s.fault ∧ t.fcode = s.fcode := by
  cases hc <;> exact ⟨rfl, rfl⟩

/-- A command writes `FAULT` and `FCODE` only by raising a fault in an unfaulted block (60_exceptions.md R184, R185). -/
theorem exec_faultRegs (h : exec i s = .next t) :
    (t.fault = s.fault ∧ t.fcode = s.fcode) ∨ (s.fault = false ∧ t.fault = true) := by
  obtain ⟨-, rfl⟩ | ⟨hf, e, -, -, rfl⟩ | ⟨-, hc⟩ := exec_cases h
  · exact .inl ⟨rfl, rfl⟩
  · exact .inr ⟨hf, rfl⟩
  · exact .inl (completes_keeps_fault hc)

/-- A command other than the two builders keeps the table (10_state.md R24). -/
theorem exec_table (h : exec i s = .next t) :
    t.table = s.table ∨ ∃ mask, t.table = bases mask ∧ (i = .build mask ∨ ∃ k, i = .seqinit mask k) := by
  obtain ⟨-, rfl⟩ | ⟨-, e, -, -, rfl⟩ | ⟨-, hc⟩ := exec_cases h
  · exact .inl rfl
  · exact .inl rfl
  · cases hc with
    | build mask => exact .inr ⟨mask, rfl, .inl rfl⟩
    | seqinit mask k => exact .inr ⟨mask, rfl, .inr ⟨k, rfl⟩⟩
    | _ => exact .inl rfl

end command

/-- Writing `CST[c]` leaves every `CUR` (42_sequence.md R144). -/
theorem map_cur_setCst (s : State) (c : Nat) (x : CursorState) :
    (s.setCst c x).cursors.map (fun y => y.cur) = s.cursors.map (fun y => y.cur) := by
  refine List.ext_getElem (by simp) fun d hd _ => ?_
  by_cases hdc : c = d
  · subst hdc
    have hc : c < s.cursors.length := by simpa using hd
    simp [State.slot, List.getD, hc]
  · simp [List.getElem_set_ne hdc]

theorem transact_keeps_config {w : CommandWord} {s t : State} (h : transact w s = .next t) : t.config = s.config := by
  obtain ⟨-, rfl⟩ | ⟨e, -, -, rfl⟩ | ⟨i, -, -, he⟩ := transact_cases h
  · rfl
  · rfl
  · exact exec_keeps_config he

theorem step_keeps_config {s t : State} (h : step s = .next t) : t.config = s.config := by
  obtain ⟨rfl, -⟩ | ⟨-, more, rfl⟩ | ⟨-, more, rfl⟩ | ⟨-, w, rest, -, -, ht⟩ := step_cases h
  · rfl
  · simp [State.config, State.ncur]
  · rfl
  · exact (transact_keeps_config ht).trans rfl

/-- Settles O18: `NCUR` and `DEBUG_CHECK` are the two fields of the configuration, which every step keeps. -/
theorem configurationNeverChanges : Obligations.ConfigurationNeverChanges := fun _ _ h =>
  Config.mk.inj (step_keeps_config h)

/-- Settles O44: whichever way a reading command goes, the next state differs in the response, the draws and the fault registers
only. -/
theorem readingCommandsFrame : Obligations.ReadingCommandsFrame := by
  intro i s t hi h
  refine ⟨?_, exec_faultRegs h, exec_draws h⟩
  obtain ⟨-, rfl⟩ | ⟨-, e, -, -, rfl⟩ | ⟨-, hc⟩ := exec_cases h
  · rfl
  · rfl
  · obtain ⟨j, rfl⟩ | ⟨k, v, rfl⟩ | ⟨c, rfl⟩ := hi <;> cases hc <;> rfl

/-- The registers that are not CURNEW's and NEXT's to write, apart from the fault registers (10_state.md R36). -/
theorem cursorCommand_keeps_registers {c : Nat} {i : Instr} {s t : State} (hi : i = .curnew c ∨ i = .next c)
    (h : exec i s = .next t) :
    t.table = s.table ∧ t.tv = s.tv ∧ t.sv = s.sv ∧ t.kreg = s.kreg ∧ t.empty = s.empty ∧ t.draws = s.draws := by
  obtain ⟨-, rfl⟩ | ⟨-, e, -, -, rfl⟩ | ⟨-, hc⟩ := exec_cases h
  · exact ⟨rfl, rfl, rfl, rfl, rfl, rfl⟩
  · exact ⟨rfl, rfl, rfl, rfl, rfl, rfl⟩
  · obtain rfl | rfl := hi <;> cases hc <;> exact ⟨rfl, rfl, rfl, rfl, rfl, rfl⟩

theorem cursorCommand_keeps_other_slots {c : Nat} {i : Instr} {s t : State} (hi : i = .curnew c ∨ i = .next c)
    (h : exec i s = .next t) {d : Nat} (hd : d ≠ c) : t.cursors[d]? = s.cursors[d]? := by
  obtain ⟨-, rfl⟩ | ⟨-, e, -, -, rfl⟩ | ⟨-, hc⟩ := exec_cases h
  · rfl
  · rfl
  · obtain rfl | rfl := hi <;> cases hc <;>
      simp only [respond_cursors, getElem?_setCst_ne _ _ hd, getElem?_setActive_ne _ _ hd]

/-- 42_sequence.md R144. -/
theorem execCurnew_keeps_cur {c : Nat} {s t : State} (h : exec (.curnew c) s = .next t) :
    t.cursors.map (fun x => x.cur) = s.cursors.map (fun x => x.cur) := by
  obtain ⟨-, rfl⟩ | ⟨-, e, -, -, rfl⟩ | ⟨-, ⟨⟩⟩ := exec_cases h
  · rfl
  · rfl
  · exact map_cur_setCst s c .new

/-- Settles O45: the registers, the other slots and CURNEW's own `CUR` each by their lemma. -/
theorem cursorCommandsFrame : Obligations.CursorCommandsFrame := by
  intro c i s t hi h
  obtain ⟨htable, htv, hsv, hkreg, hempty, hdraws⟩ := cursorCommand_keeps_registers hi h
  obtain ⟨hncur, hcheck⟩ := Config.mk.inj (exec_keeps_config h)
  exact ⟨htable, htv, hsv, hkreg, hempty, hncur, hcheck, exec_keeps_inputs h, hdraws, exec_faultRegs h,
    fun d => cursorCommand_keeps_other_slots hi h, fun hcurnew => execCurnew_keeps_cur (hcurnew ▸ h)⟩

/-- Settles O46: only a raised fault touches `FAULT`, and of the two builders only SEQINIT has a fault to raise (`mayRaise`). -/
theorem buildingCommandsFrame : Obligations.BuildingCommandsFrame := by
  intro mask i s t hi h
  obtain ⟨-, hcheck⟩ := Config.mk.inj (exec_keeps_config h)
  have hinputs := exec_keeps_inputs h
  obtain ⟨-, rfl⟩ | ⟨hf, e, he, -, rfl⟩ | ⟨-, hc⟩ := exec_cases h
  · exact ⟨rfl, rfl, rfl, rfl, .inl ⟨rfl, rfl⟩⟩
  · obtain rfl | hk := hi
    · cases he
    · exact ⟨rfl, rfl, rfl, rfl, .inr ⟨hk, hf, rfl, rfl, rfl, rfl, rfl, rfl, rfl⟩⟩
  · refine ⟨?_, hcheck, hinputs, ?_, .inl (completes_keeps_fault hc)⟩ <;>
      obtain rfl | ⟨k, rfl⟩ := hi <;> cases hc <;> simp

/-- Settles O47: of the things a step can do, only a decoded command can write the table (`exec_table`). -/
theorem onlyBuildersWriteTable : Obligations.OnlyBuildersWriteTable := by
  intro s t h hno hne
  obtain ⟨rfl, -⟩ | ⟨hreset, -⟩ | ⟨-, more, rfl⟩ | ⟨-, w, rest, hin, -, ht⟩ := step_cases h
  · exact absurd rfl hne
  · exact absurd (hreset.symm.trans hno) (by decide)
  · exact absurd rfl hne
  · obtain ⟨-, rfl⟩ | ⟨e, -, -, rfl⟩ | ⟨i, -, hd, he⟩ := transact_cases ht
    · exact absurd rfl hne
    · exact absurd rfl hne
    · obtain hsame | ⟨mask, htable, hi⟩ := exec_table he
      · exact absurd hsame hne
      · refine ⟨w, rest, mask, hin, htable, ?_⟩
        obtain rfl | ⟨k, rfl⟩ := hi
        · exact .inl hd
        · exact .inr ⟨k, hd⟩

end Sys2Proof.Proofs
end

section
/-! Values that hold nothing are not observed (10_state.md R25, R29): a command run from two states that differ in such values only
gives matching next states. -/

namespace Sys2Proof.Proofs
open Sys2Proof.Machine

/-- Every next state of `r` has a next state of `r'` that `R` relates to it. -/
def Matches (R : State → State → Prop) (r r' : Result) : Prop := ∀ t, r = .next t → ∃ u, r' = .next u ∧ R t u

section guards
variable {R : State → State → Prop} {s s' : State} {r r' : Result}

theorem matches_next {t u : State} (h : R t u) : Matches R (.next t) (.next u) := by
  rintro _ ⟨⟩
  exact ⟨u, rfl, h⟩

theorem matches_ite {p p' : Prop} [Decidable p] [Decidable p'] {q q' : Result} (hiff : p' ↔ p)
    (hthen : p → Matches R r r') (helse : ¬ p → Matches R q q') :
    Matches R (if p then r else q) (if p' then r' else q') := by
  by_cases hp : p
  · rw [if_pos hp, if_pos (hiff.mpr hp)]
    exact hthen hp
  · rw [if_neg hp, if_neg (mt hiff.mp hp)]
    exact helse hp

theorem matches_unlessFaulted (hf : s'.fault = s.fault) (ha : R (answerFaulted s) (answerFaulted s')) (h : Matches R r r') :
    Matches R (unlessFaulted s r) (unlessFaulted s' r') :=
  matches_ite (by rw [hf]) (fun _ => matches_next ha) fun _ => h

theorem matches_faultIf {bad bad' : Prop} [Decidable bad] [Decidable bad'] {e : FaultCode} (hiff : bad' ↔ bad)
    (ha : R (raiseFault e s) (raiseFault e s')) (h : ¬ bad → Matches R r r') :
    Matches R (faultIf bad e s r) (faultIf bad' e s' r') :=
  matches_ite hiff (fun _ => matches_next ha) h

end guards

/-- Equal but for the table. -/
abbrev EqualUpToTable (t u : State) : Prop := { u with table := t.table } = t

/-- While `TV = 0` and `SV = 0` each command either stops at a test or does not look at the table. -/
theorem matches_replace_table (i : Instr) {s : State} (other : Table) (htv : s.tv = false) (hsv : s.sv = false) :
    Matches EqualUpToTable (exec i s) (exec i { s with table := other }) := by
  cases i with
  | build mask => exact matches_unlessFaulted rfl rfl <| matches_next rfl
  | rdtab j =>
    exact matches_unlessFaulted rfl rfl <| matches_faultIf .rfl rfl fun _ => matches_faultIf .rfl rfl fun ht => absurd htv ht
  | advance k current =>
    exact matches_unlessFaulted rfl rfl <| matches_faultIf .rfl rfl fun _ => matches_faultIf .rfl rfl fun ht => absurd htv ht
  | seqinit mask k => exact matches_unlessFaulted rfl rfl <| matches_faultIf .rfl rfl fun _ => matches_next rfl
  | curnew c =>
    exact matches_unlessFaulted rfl rfl <| matches_faultIf .rfl rfl fun _ => matches_faultIf .rfl rfl fun hs => absurd hsv hs
  | next c =>
    exact matches_unlessFaulted rfl rfl <| matches_faultIf .rfl rfl fun _ => matches_faultIf .rfl rfl fun hs => absurd hsv hs
  | rdstat c => exact matches_unlessFaulted rfl rfl <| matches_faultIf .rfl rfl fun _ => matches_next rfl

/-- Settles O50: every command's two results match, whatever replaces the table. -/
theorem staleTableIsNeverObserved : Obligations.StaleTableIsNeverObserved := fun i _ t other htv hsv h =>
  matches_replace_table i other htv hsv t h

section cursors
variable {s : State} {v : Word}

/-- What `scrub` does to one cursor. -/
def scrubCursor (v : Word) (x : Cursor) : Cursor := if x.cst = .active then x else { x with cur := v }

@[simp] theorem scrub_table (v : Word) (s : State) : (scrub v s).table = s.table := rfl

@[simp] theorem scrub_kreg (v : Word) (s : State) : (scrub v s).kreg = s.kreg := rfl

theorem scrub_cursors (v : Word) (s : State) : (scrub v s).cursors = s.cursors.map (scrubCursor v) := rfl

@[simp] theorem scrubCursor_cst (v : Word) (x : Cursor) : (scrubCursor v x).cst = x.cst := by
  unfold scrubCursor
  split <;> rfl

theorem scrubCursor_of_active {x : Cursor} (h : x.cst = .active) : scrubCursor v x = x := if_pos h

theorem scrubCursor_of_not_active {x : Cursor} (h : x.cst ≠ .active) : scrubCursor v x = { x with cur := v } := if_neg h

theorem scrubCursor_scrubCursor (v : Word) (x : Cursor) : scrubCursor v (scrubCursor v x) = scrubCursor v x := by
  by_cases h : x.cst = .active
  · rw [scrubCursor_of_active h, scrubCursor_of_active h]
  · rw [scrubCursor_of_not_active h, scrubCursor_of_not_active (x := { x with cur := v }) h]

@[simp] theorem ncur_scrub (v : Word) (s : State) : (scrub v s).ncur = s.ncur := by
  simp [State.ncur, scrub_cursors]

theorem slot_scrub {c : Nat} (h : c < s.ncur) : (scrub v s).slot c = scrubCursor v (s.slot c) :=
  slot_of_getElem? (by rw [scrub_cursors, List.getElem?_map, getElem?_of_lt_ncur h]; rfl)

/-- Scrubbing sees of the cursor file only the scrubbed cursors. -/
theorem scrub_cursors_congr (s : State) {cs cs' : List Cursor} (h : cs.map (scrubCursor v) = cs'.map (scrubCursor v)) :
    scrub v { s with cursors := cs } = scrub v { s with cursors := cs' } :=
  congrArg (fun ds => { s with cursors := ds }) h

theorem map_scrubCursor_scrub (v : Word) (s : State) :
    (scrub v s).cursors.map (scrubCursor v) = s.cursors.map (scrubCursor v) := by
  simp only [scrub_cursors, List.map_map]
  exact List.map_congr_left fun x _ => scrubCursor_scrubCursor v x

theorem scrub_scrub (v : Word) (s : State) : scrub v (scrub v s) = scrub v s :=
  scrub_cursors_congr s (map_scrubCursor_scrub v s)

/-- Slot `c` written alike in `s` and in its scrubbed copy. -/
theorem map_scrubCursor_set (c : Nat) {x y : Cursor} (h : scrubCursor v y = scrubCursor v x) :
    ((scrub v s).cursors.set c y).map (scrubCursor v) = (s.cursors.set c x).map (scrubCursor v) := by
  rw [List.map_set, List.map_set, map_scrubCursor_scrub, h]

theorem scrub_setActive_scrub (s : State) (c : Nat) (w : Word) :
    scrub v ((scrub v s).setActive c w) = scrub v (s.setActive c w) :=
  scrub_cursors_congr s (map_scrubCursor_set c rfl)

theorem scrub_setCst_scrub {c : Nat} (hc : c < s.ncur) {x : CursorState} (hx : x ≠ .active) :
    scrub v ((scrub v s).setCst c x) = scrub v (s.setCst c x) := by
  refine scrub_cursors_congr s (map_scrubCursor_set c ?_)
  rw [slot_scrub hc, scrubCursor_of_not_active (x := { scrubCursor v (s.slot c) with cst := x }) hx,
    scrubCursor_of_not_active (x := { s.slot c with cst := x }) hx]

theorem map_scrubCursor_renewAll_scrub (v : Word) (s : State) :
    (renewAll (scrub v s).cursors).map (scrubCursor v) = (renewAll s.cursors).map (scrubCursor v) := by
  simp [renewAll, scrub_cursors, scrubCursor_of_not_active]

theorem statusWord_scrub {c : Nat} (hc : c < s.ncur) : statusWord (scrub v s) c = statusWord s c := by
  simp only [statusWord, slot_scrub hc, scrubCursor_cst]
  rfl

/-- The same answer, and states equal but for the `CUR` of cursors that are not active. -/
abbrev EqualUpToStale (v : Word) (t u : State) : Prop := u.rsp = t.rsp ∧ scrub v u = scrub v t

/-- The same answer given in both keeps states equal up to stale values. -/
theorem equalUpToStale_respond {t u : State} (st : Status) (w : Word) (h : scrub v u = scrub v t) :
    EqualUpToStale v (respond st w t) (respond st w u) :=
  ⟨rfl, congrArg (respond st w) h⟩

theorem equalUpToStale_answerFaulted (v : Word) (s : State) :
    EqualUpToStale v (answerFaulted s) (answerFaulted (scrub v s)) :=
  equalUpToStale_respond _ _ (scrub_scrub v s)

theorem equalUpToStale_raiseFault (v : Word) (s : State) (e : FaultCode) :
    EqualUpToStale v (raiseFault e s) (raiseFault e (scrub v s)) :=
  ⟨rfl, congrArg (raiseFault e) (scrub_scrub v s)⟩

theorem equalUpToStale_respondFree (v : Word) (s : State) :
    EqualUpToStale v (respondFree s) (respondFree (scrub v s)) :=
  ⟨rfl, congrArg respondFree (scrub_scrub v s)⟩

theorem pull_of_new {c : Nat} (h : (s.slot c).cst = .new) : pull c s = respond .ok s.seed (s.setActive c s.seed) := by
  simp only [pull, h]

theorem pull_of_active {c : Nat} (h : (s.slot c).cst = .active) :
    pull c s =
      if (s.slot c).cur < adv s.table s.kreg.toNat (s.slot c).cur then
        respond .ok (adv s.table s.kreg.toNat (s.slot c).cur) (s.setActive c (adv s.table s.kreg.toNat (s.slot c).cur))
      else respond .ended 0#32 (s.setCst c .done) := by
  simp only [pull, h]

theorem pull_of_done {c : Nat} (h : (s.slot c).cst = .done) : pull c s = respond .ended 0#32 s := by
  simp only [pull, h]

/-- An active slot's value is not scrubbed, and in the other arms NEXT does not read it. -/
theorem equalUpToStale_pull {c : Nat} (hc : c < s.ncur) : EqualUpToStale v (pull c s) (pull c (scrub v s)) := by
  have hslot : (scrub v s).slot c = scrubCursor v (s.slot c) := slot_scrub hc
  have hcst : ((scrub v s).slot c).cst = (s.slot c).cst := by rw [hslot, scrubCursor_cst]
  cases h : (s.slot c).cst with
  | new =>
    rw [pull_of_new h, pull_of_new (hcst.trans h)]
    exact equalUpToStale_respond _ _ (scrub_setActive_scrub s c _)
  | active =>
    rw [pull_of_active h, pull_of_active (hcst.trans h), hslot, scrubCursor_of_active h, scrub_table, scrub_kreg]
    by_cases hlt : (s.slot c).cur < adv s.table s.kreg.toNat (s.slot c).cur
    · rw [if_pos hlt, if_pos hlt]
      exact equalUpToStale_respond _ _ (scrub_setActive_scrub s c _)
    · rw [if_neg hlt, if_neg hlt]
      exact equalUpToStale_respond _ _ (scrub_setCst_scrub hc nofun)
  | done =>
    rw [pull_of_done h, pull_of_done (hcst.trans h)]
    exact equalUpToStale_respond _ _ (scrub_scrub v s)

/-- Each command passes or fails its tests alike in `s` and in its scrubbed copy, and then does the same to both. -/
theorem matches_scrub (v : Word) (i : Instr) (s : State) :
    Matches (EqualUpToStale v) (exec i s) (exec i (scrub v s)) := by
  have hfault := equalUpToStale_raiseFault v s
  have hsame := scrub_scrub v s
  have hslot (c : Nat) : NoSuchSlot (scrub v s) c ↔ NoSuchSlot s c := by simp
  cases i <;> refine matches_unlessFaulted rfl (equalUpToStale_answerFaulted v s) ?_
  case build mask =>
    exact matches_next <| equalUpToStale_respond _ _ <|
      scrub_cursors_congr { s with table := bases mask, tv := true, sv := false, kreg := 0#6, empty := false }
        (map_scrubCursor_renewAll_scrub v s)
  case rdtab j =>
    exact matches_faultIf .rfl (hfault _) fun _ => matches_faultIf .rfl (hfault _) fun _ =>
      matches_next (equalUpToStale_respond _ _ hsame)
  case advance k current =>
    refine matches_faultIf .rfl (hfault _) fun _ => matches_faultIf .rfl (hfault _) fun _ =>
      matches_faultIf .rfl (hfault _) fun _ => matches_ite .rfl (fun hin => ?_) fun hout => ?_
    · exact matches_next (equalUpToStale_respond _ _ hsame)
    · exact matches_next (equalUpToStale_respondFree v s)
  case seqinit mask k =>
    exact matches_faultIf .rfl (hfault _) fun _ => matches_next <| equalUpToStale_respond _ _ <|
      scrub_cursors_congr
        { s with table := bases mask, tv := true, sv := true, kreg := BitVec.ofNat 6 k, empty := emptyFlag mask k }
        (map_scrubCursor_renewAll_scrub v s)
  case curnew c =>
    exact matches_faultIf (hslot c) (hfault _) fun hc => matches_faultIf .rfl (hfault _) fun _ =>
      matches_next (equalUpToStale_respond _ _ (scrub_setCst_scrub (Nat.lt_of_not_le hc) nofun))
  case next c =>
    refine matches_faultIf (hslot c) (hfault _) fun hc => matches_faultIf .rfl (hfault _) fun _ =>
      matches_ite .rfl (fun hempty => ?_) fun hmore => ?_
    · exact matches_next (equalUpToStale_respond _ _ (scrub_setCst_scrub (Nat.lt_of_not_le hc) nofun))
    · exact matches_next (equalUpToStale_pull (Nat.lt_of_not_le hc))
  case rdstat c =>
    refine matches_faultIf (hslot c) (hfault _) fun hc => ?_
    rw [statusWord_scrub (Nat.lt_of_not_le hc)]
    exact matches_next (equalUpToStale_respond _ _ hsame)

/-- Settles O51: every command's two results match, whatever replaces the stale values. -/
theorem staleCursorValueIsNeverObserved : Obligations.StaleCursorValueIsNeverObserved := matches_scrub

end cursors

end Sys2Proof.Proofs
end

section
/-! Repetition (20_memory.md R54): a command run again on the state it left. -/

namespace Sys2Proof.Proofs
open Sys2Proof.Machine

section again
variable {s t : State}

/-- A faulted block runs no command (60_exceptions.md R185). -/
theorem exec_of_fault (i : Instr) (hf : s.fault = true) : exec i s = .next (answerFaulted s) := by
  cases i <;> exact unlessFaulted_of_fault hf _

theorem exec_again_of_answerFaulted (i : Instr) (hf : s.fault = true) :
    exec i (answerFaulted s) = .next (answerFaulted s) :=
  exec_of_fault (s := answerFaulted s) i hf

theorem exec_again_of_raiseFault (i : Instr) (e : FaultCode) (s : State) :
    exec i (raiseFault e s) = .next (raiseFault e s) :=
  exec_of_fault (s := raiseFault e s) i rfl

theorem execBuild_of_ready (mask : Word) (hf : s.fault = false) :
    execBuild mask s = .next (respond .ok 0#32
      { s with
        table := bases mask, tv := true, sv := false, kreg := 0#6, empty := false, cursors := renewAll s.cursors }) :=
  unlessFaulted_of_not hf _

theorem execRdtab_of_ready {j : Nat} (hf : s.fault = false) (hj : j ≤ 32) (htv : s.tv = true) :
    execRdtab j s = .next (respond .ok (readTable s.table j) s) := by
  rw [execRdtab, unlessFaulted_of_not hf, faultIf_of_not (Nat.not_lt.mpr hj), faultIf_of_not (by simp [htv])]

theorem execSeqinit_of_ready (mask : Word) {k : Nat} (hf : s.fault = false) (hk : k ≤ 32) :
    execSeqinit mask k s = .next (respond .ok 0#32
      { s with
        table := bases mask, tv := true, sv := true, kreg := BitVec.ofNat 6 k, empty := emptyFlag mask k
        cursors := renewAll s.cursors }) := by
  rw [execSeqinit, unlessFaulted_of_not hf, faultIf_of_not (Nat.not_lt.mpr hk)]

theorem execCurnew_of_ready {c : Nat} (hf : s.fault = false) (hc : c < s.ncur) (hsv : s.sv = true) :
    execCurnew c s = .next (respond .ok 0#32 (s.setCst c .new)) := by
  rw [execCurnew, unlessFaulted_of_not hf, faultIf_of_not (Nat.not_le.mpr hc), faultIf_of_not (by simp [hsv])]

theorem execRdstat_of_ready {c : Nat} (hf : s.fault = false) (hc : c < s.ncur) :
    execRdstat c s = .next (respond .ok (statusWord s c) s) := by
  rw [execRdstat, unlessFaulted_of_not hf, faultIf_of_not (Nat.not_le.mpr hc)]

@[simp] theorem renewAll_renewAll (cs : List Cursor) : renewAll (renewAll cs) = renewAll cs := by
  simp [renewAll]

/-- The second write of `CST[c]` is the one that stays, and `CUR[c]` is still the first state's. -/
theorem setCst_setCst {c : Nat} (hc : c < s.ncur) (x y : CursorState) :
    (s.setCst c x).setCst c y = s.setCst c y := by
  rw [State.setCst, slot_setCst hc, setCst_cursors, List.set_set]
  rfl

/-- What BUILD writes depends on the mask only, but for the cursors, and renewing those twice is renewing them once
(40_table_builder.md R101). -/
theorem build_again {mask : Word} (h : exec (.build mask) s = .next t) : exec (.build mask) t = .next t := by
  obtain ⟨hf, rfl⟩ | ⟨hf, rfl⟩ := execBuild_cases h
  · exact exec_again_of_answerFaulted _ hf
  · refine (execBuild_of_ready mask ?_).trans ?_
    · exact hf
    · rw [respond_cursors, renewAll_renewAll]
      rfl

theorem rdtab_again {j : Nat} (h : exec (.rdtab j) s = .next t) : exec (.rdtab j) t = .next t := by
  obtain ⟨hf, rfl⟩ | ⟨-, -, rfl⟩ | ⟨-, -, -, rfl⟩ | ⟨hf, hj, htv, rfl⟩ := execRdtab_cases h
  · exact exec_again_of_answerFaulted _ hf
  · exact exec_again_of_raiseFault _ _ s
  · exact exec_again_of_raiseFault _ _ s
  · exact execRdtab_of_ready hf hj htv

theorem seqinit_again {mask : Word} {k : Nat} (h : exec (.seqinit mask k) s = .next t) :
    exec (.seqinit mask k) t = .next t := by
  obtain ⟨hf, rfl⟩ | ⟨-, -, rfl⟩ | ⟨hf, hk, rfl⟩ := execSeqinit_cases h
  · exact exec_again_of_answerFaulted _ hf
  · exact exec_again_of_raiseFault _ _ s
  · refine (execSeqinit_of_ready mask ?_ hk).trans ?_
    · exact hf
    · rw [respond_cursors, renewAll_renewAll]
      rfl

/-- The slot is new already (42_sequence.md R144). -/
theorem curnew_again {c : Nat} (h : exec (.curnew c) s = .next t) : exec (.curnew c) t = .next t := by
  obtain ⟨hf, rfl⟩ | ⟨-, -, rfl⟩ | ⟨-, -, -, rfl⟩ | ⟨hf, hc, hsv, rfl⟩ := execCurnew_cases h
  · exact exec_again_of_answerFaulted _ hf
  · exact exec_again_of_raiseFault _ _ s
  · exact exec_again_of_raiseFault _ _ s
  · have hsame : respond .ok 0#32 ((s.setCst c .new).setCst c .new) = respond .ok 0#32 (s.setCst c .new) := by
      rw [setCst_setCst hc]
    refine (execCurnew_of_ready ?_ ?_ ?_).trans (congrArg Host.Outcome.next hsame)
    · exact hf
    · simpa using hc
    · exact hsv

theorem rdstat_again {c : Nat} (h : exec (.rdstat c) s = .next t) : exec (.rdstat c) t = .next t := by
  obtain ⟨hf, rfl⟩ | ⟨-, -, rfl⟩ | ⟨hf, hc, rfl⟩ := execRdstat_cases h
  · exact exec_again_of_answerFaulted _ hf
  · exact exec_again_of_raiseFault _ _ s
  · exact execRdstat_of_ready hf hc

end again

/-- Settles O49: a faulting path ends in a faulted block, which gives its answer again; a completed command passes its tests again
and writes the values that stand there. -/
theorem repeatedCommandChangesNothing : Obligations.RepeatedCommandChangesNothing := by
  rintro i s t (⟨m, rfl⟩ | ⟨j, rfl⟩ | ⟨m, k, rfl⟩ | ⟨c, rfl⟩ | ⟨c, rfl⟩) h
  · exact build_again h
  · exact rdtab_again h
  · exact seqinit_again h
  · exact curnew_again h
  · exact rdstat_again h

end Sys2Proof.Proofs
end

section
/-! The decoder by the rows of the opcode table (30_encoding.md R78, R79, R82): what a row's pattern says of a word's fields, and the
round trips with the encoder. -/

namespace Sys2Proof.Proofs
open Sys2Proof.Machine

section rows
variable {w : CommandWord} {n : Nat} {row : OpcodeRow}

theorem opcodeRow_eq_none_iff : opcodeRow n = none ↔ n = 0 ∨ 8 ≤ n := by
  constructor
  · intro h
    by_contra hn
    obtain ⟨hlo, hhi⟩ : 1 ≤ n ∧ n ≤ 7 := by omega
    interval_cases n <;> cases h
  · intro hn
    unfold opcodeRow
    split
    case h_8 => rfl
    all_goals omega

/-- `OP` read as a bit vector and as a number; what stands beside it may be rewritten under it. -/
theorem fieldOp_and_iff {op : BitVec 4} {p q : Prop} (h : (fieldOp w).toNat = op.toNat → (p ↔ q)) :
    fieldOp w = op ∧ p ↔ (fieldOp w).toNat = op.toNat ∧ q := by
  rw [← BitVec.toNat_inj]
  exact and_congr_right h

/-- A word matches a row exactly when its `OP` is the row's and no must-be-zero field of the row's format is set
(30_encoding.md R75, R78). -/
theorem row_matches_iff (h : opcodeRow n = some row) :
    w &&& row.mask = row.pattern ↔ (fieldOp w).toNat = n ∧ ¬ HasBadField w := by
  unfold opcodeRow at h
  split at h <;> cases h
  case h_1 => exact (formatM_iff w (op := 1#4) rfl).trans (fieldOp_and_iff fun hop => by simp [HasBadField, hop])
  case h_2 => exact (formatJ_iff w (op := 2#4) rfl).trans (fieldOp_and_iff fun hop => by simp [HasBadField, hop])
  case h_3 => exact (formatA_iff w (op := 3#4) rfl).trans (fieldOp_and_iff fun hop => by simp [HasBadField, hop])
  case h_4 => exact (formatA_iff w (op := 4#4) rfl).trans (fieldOp_and_iff fun hop => by simp [HasBadField, hop])
  case h_5 => exact (formatC_iff w (op := 5#4) rfl).trans (fieldOp_and_iff fun hop => by simp [HasBadField, hop])
  case h_6 => exact (formatC_iff w (op := 6#4) rfl).trans (fieldOp_and_iff fun hop => by simp [HasBadField, hop])
  case h_7 => exact (formatC_iff w (op := 7#4) rfl).trans (fieldOp_and_iff fun hop => by simp [HasBadField, hop])

/-- The commands of a row are encoded with the row's `OP`. -/
theorem fieldOp_encode_make (h : opcodeRow n = some row) (c k : Nat) (d : Word) :
    (fieldOp (encode (row.make c k d))).toNat = n := by
  unfold opcodeRow at h
  split at h <;> cases h <;> exact congrArg BitVec.toNat (fieldOp_packWord ..)

/-- The two fields that hold operands are as wide as `Instr.wf` asks (30_encoding.md R71). -/
theorem make_wf (h : opcodeRow n = some row) (c : BitVec 4) (k : BitVec 6) (d : Word) :
    (row.make c.toNat k.toNat d).wf = true := by
  unfold opcodeRow at h
  split at h <;> cases h
  case h_1 => rfl
  case h_2 | h_3 | h_4 => exact decide_eq_true k.isLt
  case h_5 | h_6 | h_7 => exact decide_eq_true c.isLt

theorem decode_of_no_row (h : opcodeRow (fieldOp w).toNat = none) : decode w = .error .illegalOp := by
  simp only [decode, h]

theorem decode_of_row (h : opcodeRow (fieldOp w).toNat = some row) :
    decode w = if HasBadField w then .error .badField
      else .ok (row.make (fieldCid w).toNat (fieldK w).toNat (fieldData w)) := by
  simp only [decode, h, ne_eq, row_matches_iff h, true_and, not_not]

/-- A word decodes when it matches the row of its `OP`, and its operands are its fields (30_encoding.md R78, R79). -/
theorem decode_eq_ok_iff {i : Instr} :
    decode w = .ok i ↔ ∃ row, opcodeRow (fieldOp w).toNat = some row ∧ w &&& row.mask = row.pattern ∧
      i = row.make (fieldCid w).toNat (fieldK w).toNat (fieldData w) := by
  cases hrow : opcodeRow (fieldOp w).toNat with
  | none => simp [decode_of_no_row hrow]
  | some row =>
    by_cases hbad : HasBadField w
    · simp [decode_of_row hrow, row_matches_iff hrow, hbad]
    · simp [decode_of_row hrow, row_matches_iff hrow, hbad, eq_comm (a := i)]

/-- A row's pattern alone decides whether a word is its command: of the rows, only the one of that `OP` makes it. -/
theorem row_matches_iff_decode (h : opcodeRow n = some row) :
    w &&& row.mask = row.pattern ↔ decode w = .ok (row.make (fieldCid w).toNat (fieldK w).toNat (fieldData w)) := by
  constructor
  · intro hm
    obtain ⟨rfl, -⟩ := (row_matches_iff h).mp hm
    exact decode_eq_ok_iff.mpr ⟨row, h, hm, rfl⟩
  · intro hd
    obtain ⟨row', h', hm, hmake⟩ := decode_eq_ok_iff.mp hd
    have hop : n = (fieldOp w).toNat := by
      rw [← fieldOp_encode_make h, hmake, fieldOp_encode_make h']
    obtain rfl : row = row' := Option.some.inj (h.symm.trans (hop ▸ h'))
    exact hm

end rows

/-- Settles O3: each clause is one row of the table. -/
theorem decodeFollowsOpcodeTable : Obligations.DecodeFollowsOpcodeTable := fun _ =>
  ⟨row_matches_iff_decode (n := 1) rfl, row_matches_iff_decode (n := 2) rfl, row_matches_iff_decode (n := 3) rfl,
    row_matches_iff_decode (n := 4) rfl, row_matches_iff_decode (n := 5) rfl, row_matches_iff_decode (n := 6) rfl,
    row_matches_iff_decode (n := 7) rfl⟩

theorem not_hasBadField_of_hasIllegalOp {w : CommandWord} (h : HasIllegalOp w) : ¬ HasBadField w := by
  rintro (⟨hop, -⟩ | ⟨hop, -⟩ | ⟨hop, -⟩ | ⟨hop, -⟩) <;> omega

/-- Settles O4: `ILLEGAL_OP` is the lack of a row, and with a row the must-be-zero fields decide (`decode_of_row`). -/
theorem decodeRejectsByName : Obligations.DecodeRejectsByName := by
  intro w
  cases hrow : opcodeRow (fieldOp w).toNat with
  | none =>
    have hill : HasIllegalOp w := opcodeRow_eq_none_iff.mp hrow
    simp [decode_of_no_row hrow, hill, not_hasBadField_of_hasIllegalOp hill]
  | some row =>
    have hlegal : ¬ HasIllegalOp w := fun hill => by
      rw [opcodeRow_eq_none_iff.mpr hill] at hrow
      cases hrow
    rw [decode_of_row hrow]
    by_cases hbad : HasBadField w
    · simp [hlegal, hbad]
    · simp [hlegal, hbad]

/-- A packed word of a row's `OP` with no bad field decodes to that row's command, if the operands fit their fields. -/
theorem decode_packWord {op : BitVec 4} {cid k : Nat} {data : Word} {row : OpcodeRow} (h : opcodeRow op.toNat = some row)
    (hcid : FitsCid cid) (hk : FitsK k) (hbad : ¬ HasBadField (packWord op cid k data)) :
    decode (packWord op cid k data) = .ok (row.make cid k data) := by
  rw [← fieldOp_packWord op cid k data] at h
  rw [decode_of_row h, if_neg hbad, fieldCid_packWord, fieldK_packWord, fieldData_packWord, BitVec.toNat_ofNat,
    BitVec.toNat_ofNat, Nat.mod_eq_of_lt hcid, Nat.mod_eq_of_lt hk]

/-- Settles O1: an encoded command has no bad field (`Laws.EncodesLegalWord`), and a well-formed operand fits its field. -/
theorem decodeOfEncode : Obligations.DecodeOfEncode := by
  intro i hwf
  obtain ⟨hcid, hk⟩ : FitsCid 0 ∧ FitsK 0 := by decide
  cases i with
  | build mask => exact decode_packWord rfl hcid hk (Laws.EncodesLegalWord.build mask).2
  | rdtab j => exact decode_packWord rfl hcid (of_decide_eq_true hwf) (Laws.EncodesLegalWord.rdtab j).2
  | advance k current => exact decode_packWord rfl hcid (of_decide_eq_true hwf) (Laws.EncodesLegalWord.advance k current).2
  | seqinit mask k => exact decode_packWord rfl hcid (of_decide_eq_true hwf) (Laws.EncodesLegalWord.seqinit mask k).2
  | curnew c => exact decode_packWord rfl (of_decide_eq_true hwf) hk (Laws.EncodesLegalWord.curnew c).2
  | next c => exact decode_packWord rfl (of_decide_eq_true hwf) hk (Laws.EncodesLegalWord.next c).2
  | rdstat c => exact decode_packWord rfl (of_decide_eq_true hwf) hk (Laws.EncodesLegalWord.rdstat c).2

section encoding
variable {w pattern : CommandWord} {op : BitVec 4}

theorem packWord_of_formatM (hp : pattern = op ++ (0#4 ++ (0#2 ++ (0#6 ++ 0#32)))) (h : w &&& 0xFFFF00000000#48 = pattern) :
    packWord op 0 0 (fieldData w) = w := by
  obtain ⟨hop, hcid, hrsv, hk⟩ := (formatM_iff w hp).mp h
  conv_rhs => rw [eq_packWord hrsv, hop, hcid, hk]
  rfl

theorem packWord_of_formatJ (hp : pattern = op ++ (0#4 ++ (0#2 ++ (0#6 ++ 0#32)))) (h : w &&& 0xFFC0FFFFFFFF#48 = pattern) :
    packWord op 0 (fieldK w).toNat 0#32 = w := by
  obtain ⟨hop, hcid, hrsv, hdata⟩ := (formatJ_iff w hp).mp h
  conv_rhs => rw [eq_packWord hrsv, hop, hcid, hdata]
  rfl

theorem packWord_of_formatA (hp : pattern = op ++ (0#4 ++ (0#2 ++ (0#6 ++ 0#32)))) (h : w &&& 0xFFC000000000#48 = pattern) :
    packWord op 0 (fieldK w).toNat (fieldData w) = w := by
  obtain ⟨hop, hcid, hrsv⟩ := (formatA_iff w hp).mp h
  conv_rhs => rw [eq_packWord hrsv, hop, hcid]
  rfl

theorem packWord_of_formatC (hp : pattern = op ++ (0#4 ++ (0#2 ++ (0#6 ++ 0#32)))) (h : w &&& 0xF0FFFFFFFFFF#48 = pattern) :
    packWord op (fieldCid w).toNat 0 0#32 = w := by
  obtain ⟨hop, hrsv, hk, hdata⟩ := (formatC_iff w hp).mp h
  conv_rhs => rw [eq_packWord hrsv, hop, hk, hdata]
  rfl

/-- A word that matches a row is the encoding of the row's command: every field of it is an operand or fixed. -/
theorem encode_make {n : Nat} {row : OpcodeRow} (h : opcodeRow n = some row) (hm : w &&& row.mask = row.pattern) :
    encode (row.make (fieldCid w).toNat (fieldK w).toNat (fieldData w)) = w := by
  unfold opcodeRow at h
  split at h <;> cases h
  case h_1 => exact packWord_of_formatM rfl hm
  case h_2 => exact packWord_of_formatJ rfl hm
  case h_3 | h_4 => exact packWord_of_formatA rfl hm
  case h_5 | h_6 | h_7 => exact packWord_of_formatC rfl hm

end encoding

/-- Settles O2: the word matches the row of its `OP`. -/
theorem encodeOfDecode : Obligations.EncodeOfDecode := by
  intro w i hd
  obtain ⟨row, hrow, hm, rfl⟩ := decode_eq_ok_iff.mp hd
  exact ⟨make_wf hrow _ _ _, encode_make hrow hm⟩

/-- Settles O5: each word is the encoding of its command. -/
theorem exampleWordsDecode : Obligations.ExampleWordsDecode :=
  ⟨decodeOfEncode (.build 0x1B#32) rfl, decodeOfEncode (.rdtab 3) rfl, decodeOfEncode (.advance 2 0x3#32) rfl,
    decodeOfEncode (.seqinit 0xB#32 2) rfl, decodeOfEncode (.curnew 1) rfl, decodeOfEncode (.next 0) rfl,
    decodeOfEncode (.rdstat 0) rfl⟩

end Sys2Proof.Proofs
end

section
/-! Which command answers END (30_encoding.md R81, 42_sequence.md R152). -/

namespace Sys2Proof.Proofs
open Sys2Proof.Machine

theorem code_eq_one_iff (st : Status) : st.code = 0x1#4 ↔ st = .ended := by
  cases st <;> decide

/-- The status of an answer with the bits of END is END, and the rest of the word is its value (30_encoding.md R80, R81). -/
theorem eq_of_respond_ended {st : Status} {x v : Word} {s : State} (h : (respond st x s).rsp = some (0x1#4 ++ v)) :
    st = .ended ∧ x = v := by
  obtain ⟨hst, hv⟩ := (append_eq_append_iff st.code 0x1#4 x v).mp (Option.some.inj h)
  exact ⟨(code_eq_one_iff st).mp hst, hv⟩

/-- Settles O48: of the answers a command gives (`exec_cases`), only the two ends of NEXT have status END. -/
theorem onlyNextAnswersEnd : Obligations.OnlyNextAnswersEnd := by
  intro i s t v h hend
  obtain ⟨-, rfl⟩ | ⟨-, e, -, -, rfl⟩ | ⟨hf, hc⟩ := exec_cases h
  · cases (eq_of_respond_ended (s := s) hend).1
  · cases (eq_of_respond_ended (s := raiseFault e s) hend).1
  · cases hc with
    | nextEnd c => exact ⟨(eq_of_respond_ended hend).2.symm, hf, c, rfl⟩
    | nextDone c => exact ⟨(eq_of_respond_ended hend).2.symm, hf, c, rfl⟩
    | advanceFree k current => cases (eq_of_respond_ended (s := respondFree s) hend).1
    | _ => cases (eq_of_respond_ended hend).1

end Sys2Proof.Proofs
end

section
/-! The base table builder (40_table_builder.md): what BUILD and SEQINIT build, BUILD itself, and RDTAB. -/

namespace Sys2Proof.Proofs
open Sys2Proof.Machine

section entries
variable {t : Table} {m : Word}

/-- Entry 0 of a base table is the OR of no bits (40_table_builder.md R102). -/
theorem entry_zero (h : IsTableOf t m) : readTable t 0 = 0#32 := by
  refine BitVec.eq_of_getLsbD_eq fun b hb => ?_
  simp [h 0 (by decide) b hb]

/-- A base table saturates at the mask: every set bit has fewer than `popcount(m)` set bits below it (40_table_builder.md R102). -/
theorem entry_eq_mask {j : Nat} (h : IsTableOf t m) (hj : j < 33) (hp : popcount m ≤ j) : readTable t j = m := by
  refine BitVec.eq_of_getLsbD_eq fun b hb => ?_
  rw [h j hj b hb]
  cases hm : m.getLsbD b with
  | false => rfl
  | true =>
    have hbelow : popcountBelow m b < popcount m := popcountBelow_lt m hb hm
    simpa using hbelow.trans_le hp

end entries

section builders
variable {s : State}

/-- In an unfaulted block BUILD, and SEQINIT with a count in range, write `bases(mask)` (40_table_builder.md R101,
42_sequence.md R141). -/
theorem exec_builder_table {mask : Word} {i : Instr} (hf : s.fault = false)
    (hi : i = .build mask ∨ ∃ k, k ≤ 32 ∧ i = .seqinit mask k) : ∃ t, exec i s = .next t ∧ t.table = bases mask := by
  obtain rfl | ⟨k, hk, rfl⟩ := hi
  · exact ⟨_, execBuild_of_ready mask hf, rfl⟩
  · exact ⟨_, execSeqinit_of_ready mask hf hk, rfl⟩

theorem execRdtab_of_countOutOfRange {j : Nat} (hf : s.fault = false) (hj : 32 < j) :
    execRdtab j s = .next (raiseFault .countRange s) := by
  rw [execRdtab, unlessFaulted_of_not hf, faultIf_of_bad hj]

theorem execRdtab_of_noTable {j : Nat} (hf : s.fault = false) (hj : j ≤ 32) (htv : s.tv = false) :
    execRdtab j s = .next (raiseFault .noTable s) := by
  rw [execRdtab, unlessFaulted_of_not hf, faultIf_of_not (Nat.not_lt.mpr hj), faultIf_of_bad htv]

end builders

/-- Settles O28: both commands write `bases(mask)`, which is the base table of the mask (`bases_isTable`), and each further clause
is a fact of every base table. -/
theorem builtTableIsTableOfMask : Obligations.BuiltTableIsTableOfMask := by
  intro s mask i hf hi
  obtain ⟨t, hexec, ht⟩ := exec_builder_table hf hi
  have htable : IsTableOf t.table mask := ht ▸ bases_isTable mask
  exact ⟨t, hexec, htable, entry_zero htable, fun j hp hj => entry_eq_mask htable (by omega) hp,
    fun j hj => entry_subset_mask htable (by omega), fun j hj => entry_subset_succ htable hj⟩

/-- Settles O27: the word is the encoding of BUILD, and its two outcomes are those of a faulted and of an unfaulted block. -/
theorem buildResult : Obligations.BuildResult := fun _ mask =>
  ⟨decodeOfEncode (.build mask) rfl, exec_of_fault (.build mask), execBuild_of_ready mask⟩

/-- Settles O30: the word is the encoding of RDTAB, each outcome is one arm of its rule, and under the invariant the corner cases
are the first entry and the saturation of the base table of `T[32]`. -/
theorem rdtabResult : Obligations.RdtabResult := by
  intro s j
  refine ⟨fun hj => decodeOfEncode (.rdtab j) (decide_eq_true hj), exec_of_fault (.rdtab j), execRdtab_of_countOutOfRange,
    execRdtab_of_noTable, fun hf hj htv => ?_⟩
  rw [← readTable_of_lt s.table hj]
  refine ⟨execRdtab_of_ready hf (by omega) htv, fun hinv => ?_⟩
  have htable : IsTableOf s.table s.mask := hinv.table htv
  refine ⟨?_, entry_eq_mask htable hj⟩
  rintro rfl
  exact entry_zero htable

end Sys2Proof.Proofs
end

section
/-! ADVANCE (41_advance.md): its outcomes, the formula it computes, and the successor of a k-subset in the increasing list of
`S(m, k)`. -/

namespace Sys2Proof.Proofs
open Sys2Proof.Machine

section outcomes
variable {s : State} {k : Nat} {current : Word}

theorem execAdvance_of_countOutOfRange (hf : s.fault = false) (hk : 32 < k) :
    execAdvance k current s = .next (raiseFault .countRange s) := by
  rw [execAdvance, unlessFaulted_of_not hf, faultIf_of_bad hk]

theorem execAdvance_of_noTable (hf : s.fault = false) (hk : k ≤ 32) (htv : s.tv = false) :
    execAdvance k current s = .next (raiseFault .noTable s) := by
  rw [execAdvance, unlessFaulted_of_not hf, faultIf_of_not (Nat.not_lt.mpr hk), faultIf_of_bad htv]

theorem execAdvance_of_precond (hf : s.fault = false) (hk : k ≤ 32) (htv : s.tv = true) (hd : s.debugCheck = true)
    (hp : popcount current ≠ k) : execAdvance k current s = .next (raiseFault .precond s) := by
  rw [execAdvance, unlessFaulted_of_not hf, faultIf_of_not (Nat.not_lt.mpr hk), faultIf_of_not (by simp [htv]),
    faultIf_of_bad ⟨hd, hp⟩]

theorem execAdvance_of_inContract (hf : s.fault = false) (hk : k ≤ 32) (htv : s.tv = true)
    (hin : InContract s.table k current) : execAdvance k current s = .next (respond .ok (adv s.table k current) s) := by
  rw [execAdvance, unlessFaulted_of_not hf, faultIf_of_not (Nat.not_lt.mpr hk), faultIf_of_not (by simp [htv]),
    faultIf_of_not fun hbad => hbad.2 hin.2, if_pos hin]

theorem execAdvance_of_not_inContract (hf : s.fault = false) (hk : k ≤ 32) (htv : s.tv = true)
    (hout : ¬ InContract s.table k current) (hd : s.debugCheck = false ∨ popcount current = k) :
    execAdvance k current s = .next (respondFree s) := by
  have hpass : ¬ (s.debugCheck = true ∧ popcount current ≠ k) := by
    rintro ⟨hon, hp⟩
    exact hd.elim (fun hoff => by simp [hoff] at hon) hp
  rw [execAdvance, unlessFaulted_of_not hf, faultIf_of_not (Nat.not_lt.mpr hk), faultIf_of_not (by simp [htv]),
    faultIf_of_not hpass, if_neg hout]

/-- Under the invariant an element of `S(T[32], k)` is in contract, its count included (41_advance.md R121). -/
theorem execAdvance_of_kSubset (hf : s.fault = false) (htv : s.tv = true) (hc : KSubset s.mask k current) :
    execAdvance k current s = .next (respond .ok (adv s.table k current) s) :=
  execAdvance_of_inContract hf (hc.2 ▸ popcount_le_32 current) htv hc

end outcomes

section order
variable {m u v : Word} {k : Nat}

theorem isLeast_unique (hu : IsLeast m k u) (hv : IsLeast m k v) : u = v :=
  BitVec.le_antisymm (hu.2 v hv.1) (hv.2 u hu.1)

theorem le_popcount_of_kSubset (hu : KSubset m k u) : k ≤ popcount m :=
  hu.2 ▸ popcount_le_of_subset hu.1

end order

section enumeration
variable {m u v : Word} {k n : Nat} {vs : List Word}

theorem exists_enumeratesSubsets (m : Word) (k : Nat) : ∃ vs, EnumeratesSubsets m k vs := by
  obtain ⟨vs, hcount, horder, hcomplete⟩ := exists_increasing_kSubsets m k
  exact ⟨vs, hcount, horder, hcomplete⟩

/-- The positions of an increasing list are ordered as its elements are. -/
theorem getElem_lt_getElem_iff (h : EnumeratesSubsets m k vs) {i j : Nat} (hi : i < vs.length) (hj : j < vs.length) :
    vs[i] < vs[j] ↔ i < j := by
  have hmono := List.pairwise_iff_getElem.mp h.order
  refine ⟨fun hlt => ?_, hmono i j hi hj⟩
  by_contra hle
  obtain rfl | hji := Nat.eq_or_lt_of_le (Nat.le_of_not_lt hle)
  · exact BitVec.lt_irrefl _ hlt
  · exact BitVec.lt_irrefl _ (BitVec.lt_trans hlt (hmono j i hj hi hji))

theorem kSubset_getElem (h : EnumeratesSubsets m k vs) (hn : n < vs.length) : KSubset m k vs[n] :=
  (h.complete _).mp (List.getElem_mem hn)

theorem exists_getElem_eq (h : EnumeratesSubsets m k vs) (hv : KSubset m k v) : ∃ j, ∃ hj : j < vs.length, vs[j] = v :=
  List.mem_iff_getElem.mp ((h.complete v).mpr hv)

/-- The increasing list begins with the least element. -/
theorem getElem?_zero_of_isLeast (h : EnumeratesSubsets m k vs) (hv : IsLeast m k v) : vs[0]? = some v := by
  obtain ⟨j, hj, rfl⟩ := exists_getElem_eq h hv.1
  have hpos : 0 < vs.length := by omega
  have hle : ¬ vs[0] < vs[j] := BitVec.not_lt.mpr (hv.2 _ (kSubset_getElem h hpos))
  obtain rfl : j = 0 := by simpa [getElem_lt_getElem_iff h hpos hj] using hle
  exact List.getElem?_eq_getElem hj

/-- In the increasing list the least greater element stands right after an element. -/
theorem getElem?_succ_of_isNextAfter (h : EnumeratesSubsets m k vs) (hn : n < vs.length) (hv : IsNextAfter m k vs[n] v) :
    vs[n + 1]? = some v := by
  obtain ⟨hmem, hlt, hleast⟩ := hv
  obtain ⟨j, hj, rfl⟩ := exists_getElem_eq h hmem
  have hnj : n < j := (getElem_lt_getElem_iff h hn hj).mp hlt
  have hsucc : n + 1 < vs.length := by omega
  have hle : vs[j] ≤ vs[n + 1] :=
    hleast _ (kSubset_getElem h hsucc) ((getElem_lt_getElem_iff h hn hsucc).mpr n.lt_succ_self)
  have hjn : ¬ n + 1 < j := fun hlt => BitVec.not_lt.mpr hle ((getElem_lt_getElem_iff h hsucc hj).mpr hlt)
  obtain rfl : j = n + 1 := by omega
  exact List.getElem?_eq_getElem hj

/-- The increasing list ends with the greatest element. -/
theorem length_eq_of_isGreatest (h : EnumeratesSubsets m k vs) (hn : n < vs.length) (hu : IsGreatest m k vs[n]) :
    vs.length = n + 1 := by
  by_contra hne
  have hsucc : n + 1 < vs.length := by omega
  exact BitVec.not_lt.mpr (hu.2 _ (kSubset_getElem h hsucc)) ((getElem_lt_getElem_iff h hn hsucc).mpr n.lt_succ_self)

/-- `adv` moves one place on in the increasing list and from the last place to the first (41_advance.md R126). -/
theorem getElem?_adv {t : Table} (ht : IsTableOf t m) (h : EnumeratesSubsets m k vs) (hn : n < vs.length) :
    vs[(n + 1) % vs.length]? = some (adv t k vs[n]) := by
  obtain hnext | ⟨hgreatest, hleast⟩ := adv_spec ht (kSubset_getElem h hn)
  · have hsucc : vs[n + 1]? = some (adv t k vs[n]) := getElem?_succ_of_isNextAfter h hn hnext
    rwa [Nat.mod_eq_of_lt (List.getElem?_eq_some_iff.mp hsucc).1]
  · rw [length_eq_of_isGreatest h hn hgreatest, Nat.mod_self]
    exact getElem?_zero_of_isLeast h hleast

end enumeration

/-- Settles O33: `adv` is the successor function of the base table's k-subsets (`adv_spec`), and where it wraps, its value and
`T[k]` are both the least element. -/
theorem advanceAnswersNextSubset : Obligations.AdvanceAnswersNextSubset := by
  intro s k current hinv hf htv hc
  have htable : IsTableOf s.table s.mask := hinv.table htv
  refine ⟨adv s.table k current, execAdvance_of_kSubset hf htv hc, ?_⟩
  obtain hnext | ⟨hgreatest, hleast⟩ := adv_spec htable hc
  · exact .inl hnext
  · exact .inr ⟨hgreatest, hleast, isLeast_unique hleast (entry_isLeast htable (le_popcount_of_kSubset hc))⟩

/-- Settles O34: the increasing list of `S(m, k)` begins with the least element, which is `T[k]`, and ADVANCE moves along it as
`adv` does (`getElem?_adv`). -/
theorem advanceCyclesThroughAllSubsets : Obligations.AdvanceCyclesThroughAllSubsets := by
  intro s k hinv hf htv hk
  have htable : IsTableOf s.table s.mask := hinv.table htv
  obtain ⟨vs, hvs⟩ := exists_enumeratesSubsets s.mask k
  refine ⟨vs, hvs, ?_, fun n u hu => ?_⟩
  · rw [List.head?_eq_getElem?]
    exact getElem?_zero_of_isLeast hvs (entry_isLeast htable hk)
  · obtain ⟨hn, rfl⟩ := List.getElem?_eq_some_iff.mp hu
    exact ⟨_, getElem?_adv htable hvs hn, execAdvance_of_kSubset hf htv (kSubset_getElem hvs hn)⟩

/-- Settles O32: the answer in contract is `adv`, whose steps these are, and the upper part has at most `popcount(current) = k` bits
(`popcount_nextUpper_le`). -/
theorem advanceComputesFormula : Obligations.AdvanceComputesFormula := by
  intro s k current hf hk htv hsub hpop
  exact ⟨(popcount_nextUpper_le hsub).trans hpop.le, execAdvance_of_inContract hf hk htv ⟨hsub, hpop⟩⟩

/-- Settles O35: past its tests and out of contract ADVANCE answers with the free value, and the answer writes no register. -/
theorem advanceOutOfContractAnswersSomething : Obligations.AdvanceOutOfContractAnswersSomething := by
  intro s k current hf hk htv hout hd
  exact ⟨Config.freeWord s.draws, respondFree s, execAdvance_of_not_inContract hf hk htv hout hd, respondFree_rsp s,
    rfl, rfl, rfl, rfl, rfl, rfl, rfl, rfl⟩

/-- Settles O31: the word is the encoding of ADVANCE, each outcome is one arm of its rule, and the last outcome is
`advanceOutOfContractAnswersSomething`. -/
theorem advanceResult : Obligations.AdvanceResult := fun s k current =>
  ⟨fun hk => decodeOfEncode (.advance k current) (decide_eq_true hk), exec_of_fault (.advance k current),
    execAdvance_of_countOutOfRange, execAdvance_of_noTable, execAdvance_of_precond,
    fun hf hk htv hsub hpop => execAdvance_of_inContract hf hk htv ⟨hsub, hpop⟩,
    fun hf hk htv hd hout => advanceOutOfContractAnswersSomething s k current hf hk htv hout hd⟩

end Sys2Proof.Proofs
end

section
/-! SEQINIT, CURNEW and NEXT (42_sequence.md R141, R144, R146): their words and their outcomes. -/

namespace Sys2Proof.Proofs
open Sys2Proof.Machine

section outcomes
variable {s : State} {c : Nat}

theorem execSeqinit_of_countOutOfRange (mask : Word) {k : Nat} (hf : s.fault = false) (hk : 32 < k) :
    execSeqinit mask k s = .next (raiseFault .countRange s) := by
  rw [execSeqinit, unlessFaulted_of_not hf, faultIf_of_bad hk]

theorem execCurnew_of_noSuchSlot (hf : s.fault = false) (hc : s.ncur ≤ c) :
    execCurnew c s = .next (raiseFault .badCid s) := by
  rw [execCurnew, unlessFaulted_of_not hf, faultIf_of_bad hc]

theorem execCurnew_of_noSequence (hf : s.fault = false) (hc : c < s.ncur) (hsv : s.sv = false) :
    execCurnew c s = .next (raiseFault .noSeq s) := by
  rw [execCurnew, unlessFaulted_of_not hf, faultIf_of_not (Nat.not_le.mpr hc), faultIf_of_bad hsv]

theorem execNext_of_noSuchSlot (hf : s.fault = false) (hc : s.ncur ≤ c) :
    execNext c s = .next (raiseFault .badCid s) := by
  rw [execNext, unlessFaulted_of_not hf, faultIf_of_bad hc]

theorem execNext_of_noSequence (hf : s.fault = false) (hc : c < s.ncur) (hsv : s.sv = false) :
    execNext c s = .next (raiseFault .noSeq s) := by
  rw [execNext, unlessFaulted_of_not hf, faultIf_of_not (Nat.not_le.mpr hc), faultIf_of_bad hsv]

theorem execNext_of_empty (hf : s.fault = false) (hc : c < s.ncur) (hsv : s.sv = true) (hempty : s.empty = true) :
    execNext c s = .next (respond .ended 0#32 (s.setCst c .done)) :=
  (execNext_of_ready hf hc hsv).trans (if_pos hempty)

theorem execNext_of_not_empty (hf : s.fault = false) (hc : c < s.ncur) (hsv : s.sv = true) (hempty : s.empty = false) :
    execNext c s = .next (pull c s) :=
  (execNext_of_ready hf hc hsv).trans (if_neg (by simp [hempty]))

end outcomes

/-- Settles O36: the word is the encoding of SEQINIT, and each outcome is one arm of its rule. -/
theorem seqinitResult : Obligations.SeqinitResult := fun _ mask k =>
  ⟨fun hk => decodeOfEncode (.seqinit mask k) (decide_eq_true hk), exec_of_fault (.seqinit mask k),
    execSeqinit_of_countOutOfRange mask, execSeqinit_of_ready mask⟩

/-- Settles O37: the word is the encoding of CURNEW, and each outcome is one arm of its rule; the cursor written is the one read
from the slot. -/
theorem curnewResult : Obligations.CurnewResult := by
  intro s c
  refine ⟨fun hc => decodeOfEncode (.curnew c) (decide_eq_true hc), exec_of_fault (.curnew c), execCurnew_of_noSuchSlot,
    execCurnew_of_noSequence, fun hf hsv x hx => ?_⟩
  obtain rfl := slot_of_getElem? hx
  exact execCurnew_of_ready hf (lt_ncur_of_getElem? hx) hsv

/-- Settles O38: the word is the encoding of NEXT, the faults are its tests, and past them the arms are those of the empty sequence
and of `pull` by the state of the cursor. -/
theorem nextResult : Obligations.NextResult := by
  intro s c
  refine ⟨fun hc => decodeOfEncode (.next c) (decide_eq_true hc), exec_of_fault (.next c), execNext_of_noSuchSlot,
    execNext_of_noSequence, fun hf hsv x hx => ?_⟩
  have hc : c < s.ncur := lt_ncur_of_getElem? hx
  obtain rfl := slot_of_getElem? hx
  refine (execNext_of_ready hf hc hsv).trans ?_
  by_cases hempty : s.empty = true
  · rw [if_pos hempty, if_pos hempty]
    rfl
  · rw [if_neg hempty, if_neg hempty]
    refine congrArg Host.Outcome.next ?_
    cases hcst : (s.slot c).cst with
    | new => exact pull_of_new hcst
    | active => exact pull_of_active hcst
    | done => exact pull_of_done hcst

end Sys2Proof.Proofs
end

section
/-! What NEXT yields on a sequence that is not empty (42_sequence.md R143, R147): the least k-subset, and after a value the next
greater one. -/

namespace Sys2Proof.Proofs
open Sys2Proof.Machine

section yields
variable {s : State} {c : Nat}

/-- The seed is the least element of `S(T[32], KREG)` (42_sequence.md R143). -/
theorem isLeast_seed (h : s.Inv) (hsv : s.sv = true) (hempty : s.empty = false) :
    IsLeast s.mask s.kreg.toNat s.seed :=
  entry_isLeast (isTableOf_of_sv h hsv) (le_popcount_of_kSubset (kSubset_seed h hsv hempty))

/-- On an active cursor NEXT yields the next greater element, and at the greatest, where the candidate wraps to the least, it ends
the traversal (42_sequence.md R147). -/
theorem pull_of_active_cases (h : s.Inv) (hsv : s.sv = true) (hc : c < s.ncur) (hactive : (s.slot c).cst = .active) :
    (∃ v, IsNextAfter s.mask s.kreg.toNat (s.slot c).cur v ∧ pull c s = respond .ok v (s.setActive c v)) ∨
    (IsGreatest s.mask s.kreg.toNat (s.slot c).cur ∧ pull c s = respond .ended 0#32 (s.setCst c .done)) := by
  obtain ⟨-, hcur⟩ := h.active _ (slot_mem hc) hactive
  rw [pull_of_active hactive]
  obtain hnext | ⟨hgreatest, hleast⟩ := adv_spec (isTableOf_of_sv h hsv) hcur
  · exact .inl ⟨_, hnext, if_pos hnext.2.1⟩
  · exact .inr ⟨hgreatest, if_neg (BitVec.not_lt.mpr (hleast.2 _ hcur))⟩

end yields

/-- Settles O39: a new cursor yields the seed (`isLeast_seed`), an active one what `pull_of_active_cases` says. -/
theorem nextYieldsSubsetsInOrder : Obligations.NextYieldsSubsetsInOrder := by
  intro s c x h hf hsv hempty hx
  have hc : c < s.ncur := lt_ncur_of_getElem? hx
  obtain rfl := slot_of_getElem? hx
  have hexec : exec (.next c) s = .next (pull c s) := execNext_of_not_empty hf hc hsv hempty
  refine ⟨fun hnew => ⟨s.seed, isLeast_seed h hsv hempty, ?_⟩, fun hactive => ?_⟩
  · rw [hexec, pull_of_new hnew]
    rfl
  · rw [hexec]
    obtain ⟨v, hv, hpull⟩ | ⟨hgreatest, hpull⟩ := pull_of_active_cases h hsv hc hactive
    · exact .inl ⟨v, hv, congrArg Host.Outcome.next hpull⟩
    · exact .inr ⟨hgreatest, congrArg Host.Outcome.next hpull⟩

end Sys2Proof.Proofs
end

section
/-! Independence of cursors (42_sequence.md R150): what NEXT on a slot depends on, and that a command that leaves the slot alone
keeps it. -/

namespace Sys2Proof.Proofs
open Sys2Proof.Machine

/-- `s` and `t` agree in everything NEXT on slot `c` of an unfaulted block reads. -/
structure SameTraversal (c : Nat) (s t : State) : Prop where
  table : t.table = s.table
  sv : t.sv = s.sv
  kreg : t.kreg = s.kreg
  empty : t.empty = s.empty
  cursor : t.cursors[c]? = s.cursors[c]?

section independence
variable {c : Nat} {s t : State}

theorem SameTraversal.noSuchSlot_iff (h : SameTraversal c s t) : NoSuchSlot t c ↔ NoSuchSlot s c := by
  simp only [NoSuchSlot, State.ncur, ← List.getElem?_eq_none_iff, h.cursor]

theorem SameTraversal.slot (h : SameTraversal c s t) : t.slot c = s.slot c := by
  simp only [State.slot, List.getD, h.cursor]

theorem SameTraversal.mask (h : SameTraversal c s t) : t.mask = s.mask :=
  congrArg (readTable · 32) h.table

theorem SameTraversal.seed (h : SameTraversal c s t) : t.seed = s.seed := by
  rw [State.seed, State.seed, h.table, h.kreg]

/-- Slot `c` written alike in both. -/
theorem SameTraversal.getElem?_set (h : SameTraversal c s t) (x : Cursor) :
    (t.cursors.set c x)[c]? = (s.cursors.set c x)[c]? := by
  rw [List.getElem?_set_self', List.getElem?_set_self', h.cursor]

theorem SameTraversal.getElem?_setCst (h : SameTraversal c s t) (x : CursorState) :
    (t.setCst c x).cursors[c]? = (s.setCst c x).cursors[c]? := by
  rw [setCst_cursors, setCst_cursors, h.slot, h.getElem?_set]

/-- Past its tests NEXT gives the same answer and leaves the slot the same. -/
theorem SameTraversal.pull (h : SameTraversal c s t) :
    (pull c t).rsp = (pull c s).rsp ∧ (pull c t).cursors[c]? = (pull c s).cursors[c]? := by
  have hslot : t.slot c = s.slot c := h.slot
  cases hcst : (s.slot c).cst with
  | new =>
    rw [pull_of_new hcst, pull_of_new (hslot ▸ hcst), h.seed]
    exact ⟨rfl, h.getElem?_set _⟩
  | active =>
    rw [pull_of_active hcst, pull_of_active (hslot ▸ hcst), hslot, h.table, h.kreg]
    split
    · exact ⟨rfl, h.getElem?_set _⟩
    · exact ⟨rfl, h.getElem?_setCst _⟩
  | done =>
    rw [pull_of_done hcst, pull_of_done (hslot ▸ hcst)]
    exact ⟨rfl, h.cursor⟩

/-- NEXT gives the same answer and leaves the slot the same, by whichever arm. -/
theorem SameTraversal.execNext (h : SameTraversal c s t) (hs : s.fault = false) (ht : t.fault = false) :
    ∃ u v, execNext c s = .next u ∧ execNext c t = .next v ∧ v.rsp = u.rsp ∧ v.cursors[c]? = u.cursors[c]? := by
  by_cases hno : NoSuchSlot s c
  · exact ⟨_, _, execNext_of_noSuchSlot hs hno, execNext_of_noSuchSlot ht (h.noSuchSlot_iff.mpr hno), rfl, h.cursor⟩
  have hc : c < s.ncur := Nat.lt_of_not_le hno
  have hc' : c < t.ncur := Nat.lt_of_not_le (mt h.noSuchSlot_iff.mp hno)
  cases hsv : s.sv with
  | false => exact ⟨_, _, execNext_of_noSequence hs hc hsv, execNext_of_noSequence ht hc' (h.sv.trans hsv), rfl, h.cursor⟩
  | true =>
    have hsv' : t.sv = true := h.sv.trans hsv
    cases hempty : s.empty with
    | true =>
      exact ⟨_, _, execNext_of_empty hs hc hsv hempty, execNext_of_empty ht hc' hsv' (h.empty.trans hempty), rfl,
        h.getElem?_setCst _⟩
    | false =>
      exact ⟨_, _, execNext_of_not_empty hs hc hsv hempty, execNext_of_not_empty ht hc' hsv' (h.empty.trans hempty), h.pull⟩

theorem sameTraversal_of_reading {i : Instr}
    (hi : (∃ j, i = .rdtab j) ∨ (∃ k v, i = .advance k v) ∨ ∃ d, i = .rdstat d) (he : exec i s = .next t) :
    SameTraversal c s t := by
  obtain ⟨hframe, -⟩ := readingCommandsFrame i s t hi he
  exact ⟨(congrArg State.table hframe :), (congrArg State.sv hframe :), (congrArg State.kreg hframe :),
    (congrArg State.empty hframe :), congrArg (fun u => u.cursors[c]?) hframe⟩

theorem sameTraversal_of_other_slot {i : Instr} {d : Nat} (hi : i = .curnew d ∨ i = .next d) (hd : d ≠ c)
    (he : exec i s = .next t) : SameTraversal c s t := by
  obtain ⟨htable, -, hsv, hkreg, hempty, -⟩ := cursorCommand_keeps_registers hi he
  exact ⟨htable, hsv, hkreg, hempty, cursorCommand_keeps_other_slots hi he hd.symm⟩

/-- A command that leaves slot `c` alone writes nothing that NEXT on it reads (20_memory.md R57). -/
theorem sameTraversal_of_leavesSlot {i : Instr} (hi : LeavesSlot c i) (he : exec i s = .next t) : SameTraversal c s t := by
  cases i with
  | build => exact hi.elim
  | rdtab j => exact sameTraversal_of_reading (.inl ⟨j, rfl⟩) he
  | advance k v => exact sameTraversal_of_reading (.inr (.inl ⟨k, v, rfl⟩)) he
  | seqinit => exact hi.elim
  | curnew d => exact sameTraversal_of_other_slot (.inl rfl) hi he
  | next d => exact sameTraversal_of_other_slot (.inr rfl) hi he
  | rdstat d => exact sameTraversal_of_reading (.inr (.inr ⟨d, rfl⟩)) he

/-- No command clears `FAULT` (60_exceptions.md R185). -/
theorem unfaulted_of_exec {i : Instr} (he : exec i s = .next t) (ht : t.fault = false) : s.fault = false := by
  obtain ⟨hsame, -⟩ | ⟨hs, -⟩ := exec_faultRegs he
  · exact hsame.symm.trans ht
  · exact hs

end independence

/-- Settles O52: the command keeps what NEXT on the slot reads (`sameTraversal_of_leavesSlot`), and NEXT depends on nothing else. -/
theorem cursorsAreIndependent : Obligations.CursorsAreIndependent := fun _ _ _ _ hi he ht =>
  (sameTraversal_of_leavesSlot hi he).execNext (unfaulted_of_exec he ht) ht

end Sys2Proof.Proofs
end

section
/-! Traversals (42_sequence.md R148, R150): the position of a slot in the increasing list of `S(T[32], KREG)`, what NEXT on the slot
does to it and what other commands do to it, and the answers of a run. -/

namespace Sys2Proof.Proofs
open Sys2Proof.Machine

section positions
variable {vs : List Word} {v : Word} {n : Nat}

/-- The answer to NEXT number `n` of a traversal of `vs`, counted from 0: the value at `n`, and END past the last
(42_sequence.md R148). -/
def traversalAnswer (vs : List Word) (n : Nat) : ResponseWord := (vs.map okWord).getD n endWord

theorem traversalAnswer_of_getElem? (h : vs[n]? = some v) : traversalAnswer vs n = okWord v := by
  simp [traversalAnswer, List.getD, h]

theorem traversalAnswer_of_length_le (h : vs.length ≤ n) : traversalAnswer vs n = endWord := by
  simp [traversalAnswer, List.getD, h]

/-- The answers of a traversal from its start are the values and then END. -/
theorem map_traversalAnswer_range (vs : List Word) {n extra : Nat} (h : n ≤ vs.length + extra) :
    (List.range n).map (traversalAnswer vs) = (vs.map okWord ++ List.replicate extra endWord).take n := by
  refine List.ext_getElem (by simp [h]) fun j hj _ => ?_
  by_cases hlt : j < vs.length
  · simp [traversalAnswer_of_getElem? (List.getElem?_eq_getElem hlt), hlt]
  · simp [traversalAnswer_of_length_le (Nat.le_of_not_lt hlt), List.getElem_append, hlt]

/-- `Yielded vs x n`: cursor `x` is where `n` NEXT commands leave it in a traversal of `vs` (42_sequence.md R146). -/
inductive Yielded (vs : List Word) (x : Cursor) : Nat → Prop
  | new (hx : x.cst = .new) : Yielded vs x 0
  | active {n : Nat} (hx : x.cst = .active) (hcur : vs[n]? = some x.cur) : Yielded vs x (n + 1)
  | done {n : Nat} (hx : x.cst = .done) (hn : vs.length ≤ n) : Yielded vs x n

end positions

/-- The block as a run presents a word to it (00_scope.md R14): no response waits, and the host's list is empty (log 5). -/
abbrev readied (s : State) : State := { s with rsp := none, inputs := [] }

/-- Slot `c` of an unfaulted block with a sequence has answered `n` NEXT commands of a traversal of `vs`, the list of
`S(T[32], KREG)`. -/
structure Traversing (vs : List Word) (c n : Nat) (s : State) : Prop where
  inv : s.Inv
  unfaulted : s.fault = false
  sequence : s.sv = true
  slot : c < s.ncur
  values : EnumeratesSubsets s.mask s.kreg.toNat vs
  position : Yielded vs (s.slot c) n

section traversal
variable {vs : List Word} {c n : Nat} {s t : State}

/-- A sequence marked empty has no values (10_state.md R26). -/
theorem Traversing.length_of_empty (h : Traversing vs c n s) (hempty : s.empty = true) : vs.length = 0 := by
  obtain ⟨-, -, hiff⟩ := h.inv.sequence h.sequence
  rw [h.values.count, Nat.choose_eq_zero_of_lt (hiff.mp hempty)]

/-- A state that agrees in what NEXT on the slot reads is at the same place. -/
theorem Traversing.of_sameTraversal (h : Traversing vs c n s) (hsame : SameTraversal c s t) (hinv : t.Inv)
    (hf : t.fault = false) : Traversing vs c n t where
  inv := hinv
  unfaulted := hf
  sequence := hsame.sv.trans h.sequence
  slot := Nat.lt_of_not_le (mt hsame.noSuchSlot_iff.mp (Nat.not_le.mpr h.slot))
  values := by rw [hsame.mask, hsame.kreg]; exact h.values
  position := by rw [hsame.slot]; exact h.position

/-- The traversal does not see the response port and the host's side (70_reset_and_hazards.md R224, R227). -/
theorem Traversing.ready (h : Traversing vs c n s) : Traversing vs c n (readied s) :=
  h.of_sameTraversal ⟨rfl, rfl, rfl, rfl, rfl⟩ (inv_host (inv_takeResponse h.inv) [] s.draws) h.unfaulted

/-- A command that leaves the slot alone and does not fault leaves the traversal where it is (42_sequence.md R150). -/
theorem Traversing.of_leavesSlot {i : Instr} (h : Traversing vs c n s) (hi : LeavesSlot c i) (he : exec i s = .next t)
    (hf : t.fault = false) : Traversing vs c n t :=
  h.of_sameTraversal (sameTraversal_of_leavesSlot hi he) (exec_inv h.inv he) hf

/-- `t` is what NEXT number `n` on slot `c` leaves: the traversal's answer is given and the cursor moved on by one. -/
def PullsAt (vs : List Word) (c n : Nat) (t : State) : Prop :=
  t.fault = false ∧ t.rsp = some (traversalAnswer vs n) ∧ Yielded vs (t.slot c) (n + 1)

theorem pullsAt_respond_ok {v : Word} (hf : s.fault = false) (hc : c < s.ncur) (hv : vs[n]? = some v) :
    PullsAt vs c n (respond .ok v (s.setActive c v)) :=
  ⟨hf, by rw [traversalAnswer_of_getElem? hv]; rfl, (slot_setActive hc v).symm ▸ Yielded.active rfl hv⟩

theorem pullsAt_respond_ended (hf : s.fault = false) (hc : c < s.ncur) (hn : vs.length ≤ n) :
    PullsAt vs c n (respond .ended 0#32 (s.setCst c .done)) :=
  ⟨hf, by rw [traversalAnswer_of_length_le hn]; rfl, (slot_setCst hc .done).symm ▸ Yielded.done rfl (by omega)⟩

theorem Traversing.pullsAt_pull (h : Traversing vs c n s) (hempty : s.empty = false) : PullsAt vs c n (pull c s) := by
  obtain ⟨hinv, hf, hsv, hc, hvs, hpos⟩ := h
  cases hpos with
  | new hnew =>
    rw [pull_of_new hnew]
    exact pullsAt_respond_ok hf hc (getElem?_zero_of_isLeast hvs (isLeast_seed hinv hsv hempty))
  | active hactive hcur =>
    obtain ⟨hj, hvj⟩ := List.getElem?_eq_some_iff.mp hcur
    obtain ⟨v, hnext, hpull⟩ | ⟨hgreatest, hpull⟩ := pull_of_active_cases hinv hsv hc hactive
    · rw [hpull]
      exact pullsAt_respond_ok hf hc (getElem?_succ_of_isNextAfter hvs hj (hvj ▸ hnext))
    · rw [hpull]
      exact pullsAt_respond_ended hf hc (length_eq_of_isGreatest hvs hj (hvj ▸ hgreatest)).le
  | done hdone hn =>
    rw [pull_of_done hdone]
    exact ⟨hf, by rw [traversalAnswer_of_length_le hn]; rfl, .done hdone (by omega)⟩

/-- NEXT gives the traversal's next answer and moves it on by one (42_sequence.md R146, R148). -/
theorem Traversing.next (h : Traversing vs c n s) :
    ∃ t, exec (.next c) s = .next t ∧ t.rsp = some (traversalAnswer vs n) ∧ Traversing vs c (n + 1) t := by
  obtain ⟨t, he, hf, hrsp, hpos⟩ : ∃ t, exec (.next c) s = .next t ∧ PullsAt vs c n t := by
    cases hempty : s.empty with
    | true =>
      exact ⟨_, execNext_of_empty h.unfaulted h.slot h.sequence hempty,
        pullsAt_respond_ended h.unfaulted h.slot (by simp [h.length_of_empty hempty])⟩
    | false => exact ⟨_, execNext_of_not_empty h.unfaulted h.slot h.sequence hempty, h.pullsAt_pull hempty⟩
  obtain ⟨htable, -, hsv, hkreg, -⟩ := cursorCommand_keeps_registers (.inr rfl) he
  have hncur : t.ncur = s.ncur := congrArg Config.ncur (exec_keeps_config he)
  have hmask : t.mask = s.mask := congrArg (readTable · 32) htable
  exact ⟨t, he, hrsp,
    { inv := exec_inv h.inv he
      unfaulted := hf
      sequence := hsv.trans h.sequence
      slot := by rw [hncur]; exact h.slot
      values := by rw [hmask, hkreg]; exact h.values
      position := hpos }⟩

theorem Traversing.decode_next (h : Traversing vs c n s) : decode (encode (.next c)) = .ok (.next c) :=
  decodeOfEncode (.next c) (decide_eq_true (h.slot.trans_le h.inv.slots.2))

/-- A run of NEXT commands on the slot gives the traversal's answers in order. -/
theorem Traversing.run_replicate (h : Traversing vs c n s) (len : Nat) :
    ∃ t, run s (List.replicate len (encode (.next c))) = some (t, (List.range' n len).map (traversalAnswer vs)) := by
  induction len generalizing n s with
  | zero => exact ⟨s, rfl⟩
  | succ len ih =>
    obtain ⟨u, he, hrsp, hu⟩ := h.ready.next
    obtain ⟨t, ht⟩ := ih hu
    refine ⟨t, ?_⟩
    rw [List.replicate_succ, run_cons _ h.unfaulted h.decode_next he hrsp, ht]
    rfl

end traversal

section runs
variable {s t : State} {w : CommandWord} {ws : List CommandWord} {rs : List ResponseWord}

/-- A run that goes through is its first transaction and the run of the rest (00_scope.md R14). -/
theorem run_cons_cases (h : run s (w :: ws) = some (t, rs)) :
    ∃ u r rs', transact w (readied s) = .next u ∧ u.rsp = some r ∧
      run u ws = some (t, rs') ∧ rs = r :: rs' := by
  have hstep : step (presentCommand w { s with inputs := [] }) = transact w (readied s) :=
    step_of_command rfl rfl
  rw [run, hstep] at h
  split at h
  case h_1 u hu =>
    split at h
    case h_1 r hr =>
      obtain ⟨⟨t', rs'⟩, hrun, heq⟩ := Option.map_eq_some_iff.mp h
      obtain ⟨rfl, rfl⟩ := Prod.mk.inj heq
      exact ⟨u, r, rs', hu, hr, hrun, rfl⟩
    case h_2 => cases h
  case h_2 => cases h
  case h_3 => cases h

/-- A faulted block is faulted after any run (60_exceptions.md R185). -/
theorem run_keeps_fault (hs : s.fault = true) (h : run s ws = some (t, rs)) : t.fault = true := by
  induction ws generalizing s rs with
  | nil =>
    obtain ⟨rfl, -⟩ := Prod.mk.inj (Option.some.inj h)
    exact hs
  | cons w ws ih =>
    obtain ⟨u, r, rs', hu, -, hrun, -⟩ := run_cons_cases h
    have hw : transact w (readied s) = .next (answerFaulted (readied s)) :=
      unlessFaulted_of_fault (s := readied s) hs _
    obtain rfl := Host.Outcome.next.inj (hw.symm.trans hu)
    exact ih (s := answerFaulted (readied s)) hs hrun

theorem unfaulted_of_run (h : run s ws = some (t, rs)) (ht : t.fault = false) : s.fault = false :=
  Bool.eq_false_iff.mpr fun hs => by simp [run_keeps_fault hs h] at ht

end runs

theorem answersTo_cons_self (i : Instr) (is : List Instr) (r : ResponseWord) (rs : List ResponseWord) :
    answersTo i (i :: is) (r :: rs) = r :: answersTo i is rs := by
  simp [answersTo]

theorem answersTo_cons_of_ne {i j : Instr} (h : j ≠ i) (is : List Instr) (r : ResponseWord) (rs : List ResponseWord) :
    answersTo i (j :: is) (r :: rs) = answersTo i is rs := by
  simp [answersTo, h]

theorem ne_next_of_leavesSlot {c : Nat} {i : Instr} (h : LeavesSlot c i) : i ≠ .next c := by
  rintro rfl
  exact h rfl

/-- In a run of NEXT commands on the slot and commands that leave it alone, the former get the traversal's answers in order. -/
theorem Traversing.answersTo_run {vs : List Word} {c n : Nat} {s t : State} {is : List Instr} {rs : List ResponseWord}
    (h : Traversing vs c n s) (his : ∀ i ∈ is, i.wf = true ∧ (i = .next c ∨ LeavesSlot c i))
    (hrun : run s (is.map encode) = some (t, rs)) (ht : t.fault = false) :
    answersTo (.next c) is rs = (List.range' n (is.count (.next c))).map (traversalAnswer vs) := by
  induction is generalizing n s rs with
  | nil => rfl
  | cons i is ih =>
    obtain ⟨⟨hwf, hi⟩, hrest⟩ := List.forall_mem_cons.mp his
    obtain ⟨u, r, rs', hu, hr, hrun', rfl⟩ := run_cons_cases hrun
    have he : exec i (readied s) = .next u :=
      (transact_of_decode (s := readied s) h.unfaulted (decodeOfEncode i hwf)).symm.trans hu
    obtain rfl | hleaves := hi
    · obtain ⟨u', he', hrsp, hnext⟩ := h.ready.next
      obtain rfl := Host.Outcome.next.inj (he.symm.trans he')
      obtain rfl := Option.some.inj (hr.symm.trans hrsp)
      rw [answersTo_cons_self, List.count_cons_self, ih hnext hrest hrun']
      rfl
    · have hsame := h.ready.of_leavesSlot hleaves he (unfaulted_of_run hrun' ht)
      have hne := ne_next_of_leavesSlot hleaves
      rw [answersTo_cons_of_ne hne, List.count_cons_of_ne hne, ih hsame hrest hrun']

/-- A new cursor is at the start of the traversal. -/
theorem exists_traversing {s : State} {c : Nat} {x : Cursor} (h : s.Inv) (hf : s.fault = false) (hsv : s.sv = true)
    (hx : s.cursors[c]? = some x) (hnew : x.cst = .new) : ∃ vs, Traversing vs c 0 s := by
  obtain ⟨vs, hvs⟩ := exists_enumeratesSubsets s.mask s.kreg.toNat
  obtain rfl := slot_of_getElem? hx
  exact ⟨vs, h, hf, hsv, lt_ncur_of_getElem? hx, hvs, .new hnew⟩

/-- The first value of a base table's traversal is its entry `k` (42_sequence.md R143). -/
theorem eq_entry_of_head? {t : Table} {m v : Word} {k : Nat} {vs : List Word} (ht : IsTableOf t m)
    (h : EnumeratesSubsets m k vs) (hv : vs.head? = some v) : v = readTable t k := by
  have hk : k ≤ popcount m := le_popcount_of_kSubset ((h.complete v).mp (List.mem_of_head? hv))
  rw [List.head?_eq_getElem?, getElem?_zero_of_isLeast h (entry_isLeast ht hk)] at hv
  exact (Option.some.inj hv).symm

/-- The increasing list ends with the greatest element. -/
theorem isGreatest_of_getLast? {m v : Word} {k : Nat} {vs : List Word} (h : EnumeratesSubsets m k vs)
    (hv : vs.getLast? = some v) : IsGreatest m k v := by
  refine ⟨(h.complete v).mp (List.mem_of_getLast? hv), fun x hx => ?_⟩
  obtain ⟨j, hj, rfl⟩ := exists_getElem_eq h hx
  rw [List.getLast?_eq_getElem?] at hv
  obtain ⟨hlast, rfl⟩ := List.getElem?_eq_some_iff.mp hv
  exact BitVec.not_lt.mp fun hlt => absurd ((getElem_lt_getElem_iff h hlast hj).mp hlt) (by omega)

/-- Settles O40: a run of NEXT commands gives the traversal's answers (`Traversing.run_replicate`), and the increasing list begins
with the seed and ends with the greatest element. -/
theorem traversalYieldsAllSubsets : Obligations.TraversalYieldsAllSubsets := by
  intro s c x hinv hf hsv hx hnew
  obtain ⟨vs, h⟩ := exists_traversing hinv hf hsv hx hnew
  refine ⟨vs, h.values, fun v => eq_entry_of_head? (isTableOf_of_sv hinv hsv) h.values,
    fun v hv => isHighestBits_of_isGreatest (isGreatest_of_getLast? h.values hv), fun extra => ?_⟩
  obtain ⟨t, ht⟩ := h.run_replicate (vs.length + extra)
  rw [← List.range_eq_range', map_traversalAnswer_range vs le_rfl, List.take_of_length_le (by simp)] at ht
  exact ⟨t, ht⟩

/-- Settles O41: the NEXT commands on the slot get the traversal's answers (`Traversing.answersTo_run`), no more of them than the
run has commands. -/
theorem interleavedTraversalIsUnaffected : Obligations.InterleavedTraversalIsUnaffected := by
  intro s t c x is rs hinv hf hsv hx hnew his hrun ht
  obtain ⟨vs, h⟩ := exists_traversing hinv hf hsv hx hnew
  refine ⟨vs, h.values, ?_⟩
  have hcount : is.count (.next c) ≤ vs.length + is.length := List.count_le_length.trans (by omega)
  rw [h.answersTo_run his hrun ht, ← List.range_eq_range', map_traversalAnswer_range vs hcount]

end Sys2Proof.Proofs
end

section
/-! RDSTAT (43_status.md R170): its word and its outcomes, and the status word field by field (R171). -/

namespace Sys2Proof.Proofs
open Sys2Proof.Machine

section statusWord
variable (s : State) (c : Nat)

/-- The layout of the status word, the highest bits first (43_status.md R171). -/
theorem statusWord_eq_append :
    statusWord s c = 0#14 ++ ((s.slot c).cst.code ++ (0#2 ++ (s.kreg ++ (0#5 ++
      (BitVec.ofBool s.empty ++ (BitVec.ofBool s.sv ++ BitVec.ofBool s.tv)))))) := by
  rw [← BitVec.setWidth_eq (0#14 ++ _)]
  simp only [BitVec.setWidth_append_eq_shiftLeft_setWidth_or, statusWord, flagWord, BitVec.or_assoc]
  simp

/-- A word cut where the status word has its fields, with the three flags together. -/
theorem eq_append_statusFields (v : Word) :
    v = v.extractLsb' 18 14 ++ (v.extractLsb' 16 2 ++ (v.extractLsb' 14 2 ++ (v.extractLsb' 8 6 ++
      (v.extractLsb' 3 5 ++ v.extractLsb' 0 3)))) := by
  rw [BitVec.extractLsb'_append_extractLsb'_eq_extractLsb' (by omega),
    BitVec.extractLsb'_append_extractLsb'_eq_extractLsb' (by omega),
    BitVec.extractLsb'_append_extractLsb'_eq_extractLsb' (by omega),
    BitVec.extractLsb'_append_extractLsb'_eq_extractLsb' (by omega),
    BitVec.extractLsb'_append_extractLsb'_eq_extractLsb' (by omega)]
  exact BitVec.extractLsb'_eq_self.symm

/-- The fields of the status word above its flags (43_status.md R171). -/
theorem extractLsb'_statusWord :
    (statusWord s c).extractLsb' 18 14 = 0#14 ∧ (statusWord s c).extractLsb' 16 2 = (s.slot c).cst.code ∧
      (statusWord s c).extractLsb' 14 2 = 0#2 ∧ (statusWord s c).extractLsb' 8 6 = s.kreg ∧
      (statusWord s c).extractLsb' 3 5 = 0#5 := by
  have h := (eq_append_statusFields (statusWord s c)).symm.trans (statusWord_eq_append s c)
  obtain ⟨hhigh, h⟩ := (append_eq_append_iff ..).mp h
  obtain ⟨hcst, h⟩ := (append_eq_append_iff ..).mp h
  obtain ⟨hmid, h⟩ := (append_eq_append_iff ..).mp h
  obtain ⟨hkreg, h⟩ := (append_eq_append_iff ..).mp h
  obtain ⟨hlow, -⟩ := (append_eq_append_iff ..).mp h
  exact ⟨hhigh, hcst, hmid, hkreg, hlow⟩

/-- The flags of the status word (43_status.md R171). -/
theorem getLsbD_statusWord :
    (statusWord s c).getLsbD 0 = s.tv ∧ (statusWord s c).getLsbD 1 = s.sv ∧ (statusWord s c).getLsbD 2 = s.empty := by
  simp [statusWord, flagWord]

end statusWord

section outcomes
variable {s : State} {c : Nat}

theorem execRdstat_of_noSuchSlot (hf : s.fault = false) (hc : s.ncur ≤ c) :
    execRdstat c s = .next (raiseFault .badCid s) := by
  rw [execRdstat, unlessFaulted_of_not hf, faultIf_of_bad hc]

/-- Without a sequence `KREG`, `EMPTY` and the cursor's state are at 0 (43_status.md R171). -/
theorem statusWord_of_noSequence (h : s.Inv) (hsv : s.sv = false) (hc : c < s.ncur) : statusWord s c = flagWord s.tv := by
  obtain ⟨hkreg, hempty, hnew⟩ := h.noSequence hsv
  have hcst : (s.slot c).cst.code = 0#2 := congrArg CursorState.code (hnew _ (slot_mem hc))
  simp [statusWord, hcst, hkreg, hempty, hsv, flagWord]

theorem responseWord_ok_flagWord (b : Bool) :
    responseWord .ok (flagWord b) = if b = true then 0x000000001#36 else 0x000000000#36 := by
  cases b <;> rfl

end outcomes

/-- Settles O43: RDSTAT answers with the status word, which is `TV` alone (`statusWord_of_noSequence`). -/
theorem statusWithoutSequenceShowsTableValidOnly : Obligations.StatusWithoutSequenceShowsTableValidOnly := by
  intro s c hinv hf hsv hc
  refine (execRdstat_of_ready hf hc).trans ?_
  rw [respond, statusWord_of_noSequence hinv hsv hc, responseWord_ok_flagWord]

/-- Settles O42: the word is the encoding of RDSTAT, each outcome is one arm of its rule, and the value answered is the status
word. -/
theorem rdstatResult : Obligations.RdstatResult := by
  intro s c
  refine ⟨fun hc => decodeOfEncode (.rdstat c) (decide_eq_true hc), exec_of_fault (.rdstat c), execRdstat_of_noSuchSlot,
    fun hf x hx => ?_⟩
  obtain rfl := slot_of_getElem? hx
  obtain ⟨htv, hsv, hempty⟩ := getLsbD_statusWord s c
  obtain ⟨hhigh, hcst, hmid, hkreg, hlow⟩ := extractLsb'_statusWord s c
  exact ⟨statusWord s c, execRdstat_of_ready hf (lt_ncur_of_getElem? hx), htv, hsv, hempty, hlow, hkreg, hmid, hcst, hhigh⟩

end Sys2Proof.Proofs
end

section
/-! Faults (60_exceptions.md): the faulted state (R185), the first failing test of a command and of a word (R183), and the fault codes
one by one (R186 to R192). -/

namespace Sys2Proof.Proofs
open Sys2Proof.Machine

section tests
variable {s t : State} {r : Result} {o : Option FaultCode} {e : FaultCode} {i : Instr} {w : CommandWord}

/-- Each fault cause has a code of its own (60_exceptions.md R181). -/
theorem code_injective : Function.Injective FaultCode.code := by
  intro a b
  cases a <;> cases b <;> decide

/-- The first test of a decoded command that fails, in the order of 60_exceptions.md R183. `exec_faultsAs` ties it to `exec`. -/
def commandFault (s : State) : Instr → Option FaultCode
  | .build _ => none
  | .rdtab j => if CountOutOfRange j then some .countRange else if s.tv = false then some .noTable else none
  | .advance k current =>
    if CountOutOfRange k then some .countRange else if s.tv = false then some .noTable
    else if s.debugCheck = true ∧ popcount current ≠ k then some .precond else none
  | .seqinit _ k => if CountOutOfRange k then some .countRange else none
  | .curnew c | .next c => if NoSuchSlot s c then some .badCid else if s.sv = false then some .noSeq else none
  | .rdstat c => if NoSuchSlot s c then some .badCid else none

/-- `FaultsAs s r o`: the outcome `r` of a command in state `s` is to raise the fault `o`, or, if `o` is none, a next state that is not
faulted. -/
def FaultsAs (s : State) (r : Result) : Option FaultCode → Prop
  | some e => r = .next (raiseFault e s)
  | none => ∃ t, r = .next t ∧ t.fault = false

theorem faultsAs_next (h : t.fault = false) : FaultsAs s (.next t) none := ⟨t, rfl, h⟩

theorem faultsAs_unlessFaulted (hf : s.fault = false) (h : FaultsAs s r o) : FaultsAs s (unlessFaulted s r) o := by
  rwa [unlessFaulted_of_not hf]

/-- A test that fails decides, and the later tests are made only if it passes. -/
theorem faultsAs_faultIf {bad : Prop} [Decidable bad] (h : FaultsAs s r o) :
    FaultsAs s (faultIf bad e s r) (if bad then some e else o) := by
  by_cases hbad : bad
  · rw [faultIf_of_bad hbad, if_pos hbad]
    rfl
  · rwa [faultIf_of_not hbad, if_neg hbad]

theorem FaultsAs.eq_raiseFault (h : FaultsAs s r o) (hr : r = .next t) (ht : t.fault = true) :
    ∃ e, o = some e ∧ t = raiseFault e s := by
  subst hr
  cases o with
  | some e => exact ⟨e, rfl, Host.Outcome.next.inj h⟩
  | none =>
    obtain ⟨u, hu, hfault⟩ := h
    cases hu
    exact absurd (ht.symm.trans hfault) (by decide)

theorem pull_fault (c : Nat) (s : State) : (pull c s).fault = s.fault := by
  obtain ⟨-, h⟩ | ⟨-, -, h⟩ | ⟨-, -, h⟩ | ⟨-, h⟩ := pull_cases c s <;> simp [h]

/-- Each command makes the tests of `commandFault` in their order and then completes without a fault. -/
theorem exec_faultsAs (hf : s.fault = false) (i : Instr) : FaultsAs s (exec i s) (commandFault s i) := by
  cases i <;> refine faultsAs_unlessFaulted hf ?_
  case build mask => exact faultsAs_next hf
  case rdtab j => exact faultsAs_faultIf <| faultsAs_faultIf <| faultsAs_next hf
  case advance k current =>
    refine faultsAs_faultIf <| faultsAs_faultIf <| faultsAs_faultIf ?_
    split <;> exact faultsAs_next hf
  case seqinit mask k => exact faultsAs_faultIf <| faultsAs_next hf
  case curnew c => exact faultsAs_faultIf <| faultsAs_faultIf <| faultsAs_next hf
  case next c =>
    refine faultsAs_faultIf <| faultsAs_faultIf ?_
    split
    · exact faultsAs_next hf
    · exact faultsAs_next ((pull_fault c s).trans hf)
  case rdstat c => exact faultsAs_faultIf <| faultsAs_next hf

theorem transact_of_error {e : Illegal} (hf : s.fault = false) (hd : decode w = .error e) :
    transact w s = .next (raiseFault (illegalCode e) s) := by
  rw [transact, unlessFaulted_of_not hf, hd]

/-- The opcode is tested before the must-be-zero fields (60_exceptions.md R183). -/
theorem firstFault_of_error {e : Illegal} (hd : decode w = .error e) : firstFault s w = some (illegalCode e) := by
  cases e with
  | illegalOp => exact if_pos ((decodeRejectsByName w).1.mp hd)
  | badField =>
    have hbad : HasBadField w := (decodeRejectsByName w).2.mp hd
    exact (if_neg fun hill => not_hasBadField_of_hasIllegalOp hill hbad).trans (if_pos hbad)

/-- Of the tests on a word that decodes, those of its command remain, row by row. -/
theorem firstFault_of_ok (hd : decode w = .ok i) : firstFault s w = commandFault s i := by
  have hill : ¬ HasIllegalOp w := fun h => by cases hd.symm.trans ((decodeRejectsByName w).1.mpr h)
  have hbad : ¬ HasBadField w := fun h => by cases hd.symm.trans ((decodeRejectsByName w).2.mpr h)
  obtain ⟨row, hrow, -, rfl⟩ := decode_eq_ok_iff.mp hd
  rw [firstFault, if_neg hill, if_neg hbad]
  unfold opcodeRow at hrow
  split at hrow <;> cases hrow
  all_goals
    rename_i hop
    simp [commandFault, hop]

/-- A word raises the fault of its first failing test, and none if none fails. -/
theorem transact_faultsAs (hf : s.fault = false) (w : CommandWord) : FaultsAs s (transact w s) (firstFault s w) := by
  cases hd : decode w with
  | error e =>
    rw [firstFault_of_error hd]
    exact transact_of_error hf hd
  | ok i =>
    rw [firstFault_of_ok hd, transact_of_decode hf hd]
    exact exec_faultsAs hf i

/-- A fault code recorded by a command is that of its first failing test. -/
theorem commandFault_of_fcode (hf : s.fault = false) (h : exec i s = .next t) (ht : t.fault = true) (hcode : t.fcode = e.code) :
    commandFault s i = some e := by
  obtain ⟨e', he, rfl⟩ := (exec_faultsAs hf i).eq_raiseFault h ht
  rwa [← code_injective hcode]

/-- Of a command with a count, `COUNT_RANGE` is the test of that count (60_exceptions.md R188). -/
theorem countOutOfRange_of_commandFault {k : Nat} {v : Word} (hi : i ∈ [Instr.rdtab k, Instr.advance k v, Instr.seqinit v k])
    (h : commandFault s i = some .countRange) : 32 < k := by
  simp only [List.mem_cons, List.not_mem_nil, or_false] at hi
  obtain rfl | rfl | rfl := hi <;> simpa [commandFault, ite_eq_iff] using h

/-- `BAD_CID` is the test of the slot number, which three commands have (60_exceptions.md R189). -/
theorem noSuchSlot_of_commandFault (h : commandFault s i = some .badCid) :
    ∃ c, s.ncur ≤ c ∧ (i = .curnew c ∨ i = .next c ∨ i = .rdstat c) := by
  cases i with
  | curnew c | next c | rdstat c => exact ⟨c, by simpa [commandFault, ite_eq_iff] using h, by simp⟩
  | _ => simp [commandFault, ite_eq_iff] at h

/-- Only ADVANCE tests the population, and under `DEBUG_CHECK` only (60_exceptions.md R192). -/
theorem precond_of_commandFault (h : commandFault s i = some .precond) :
    s.debugCheck = true ∧ ∃ k current, i = .advance k current ∧ popcount current ≠ k := by
  cases i with
  | advance k current =>
    obtain ⟨-, -, hd, hp⟩ : k ≤ 32 ∧ s.tv = true ∧ s.debugCheck = true ∧ popcount current ≠ k := by
      simpa [commandFault, ite_eq_iff] using h
    exact ⟨hd, k, current, rfl, hp⟩
  | _ => simp [commandFault, ite_eq_iff] at h

end tests

/-- Settles O19: the next state that is faulted is the one of the first failing test (`transact_faultsAs`). -/
theorem faultsArePrecise : Obligations.FaultsArePrecise := by
  intro s t w hf h ht
  obtain ⟨e, -, rfl⟩ := (transact_faultsAs hf w).eq_raiseFault h ht
  exact ⟨e, rfl⟩

/-- Settles O20: of the things a command can do (`exec_cases`) only raising a fault of its list leaves an unfaulted block faulted. -/
theorem commandsRaiseOnlyTheirFaults : Obligations.CommandsRaiseOnlyTheirFaults := by
  intro i s t hf h ht
  obtain ⟨hf', -⟩ | ⟨-, e, he, -, rfl⟩ | ⟨-, hc⟩ := exec_cases h
  · exact absurd (hf'.symm.trans hf) (by decide)
  · exact ⟨e, he, rfl⟩
  · exact absurd (ht.symm.trans ((completes_keeps_fault hc).1.trans hf)) (by decide)

/-- Settles O21: an unfaulted block's outcome is the one of `firstFault` (`transact_faultsAs`). -/
theorem firstFailingTestDecides : Obligations.FirstFailingTestDecides := fun _ w =>
  ⟨fun hf => unlessFaulted_of_fault hf _,
    fun hf _ hfirst => (hfirst ▸ transact_faultsAs hf w :),
    fun hf hfirst => (hfirst ▸ transact_faultsAs hf w :)⟩

/-- Settles O23: the slot test is the first of all three commands, and 16 slots hold every number that fits the `CID` field. -/
theorem badCidFaults : Obligations.BadCidFaults := by
  refine ⟨fun s c hf hc => ?_, fun s t i hf hncur hwf h ht hcode => ?_⟩
  · exact List.forall_mem_cons.mpr ⟨execCurnew_of_noSuchSlot hf hc, List.forall_mem_cons.mpr
      ⟨execNext_of_noSuchSlot hf hc, List.forall_mem_singleton.mpr (execRdstat_of_noSuchSlot hf hc)⟩⟩
  · obtain ⟨c, hc, hi⟩ := noSuchSlot_of_commandFault (commandFault_of_fcode hf h ht hcode)
    have hfits : FitsCid c := by obtain rfl | rfl | rfl := hi <;> exact of_decide_eq_true hwf
    omega

/-- Settles O26: code 7 is recorded only for ADVANCE's own test (`precond_of_commandFault`). -/
theorem precondFaults : Obligations.PrecondFaults :=
  ⟨fun _ _ _ => execAdvance_of_precond,
    fun _ _ _ hf h ht hcode => precond_of_commandFault (commandFault_of_fcode hf h ht hcode)⟩

/-- Settles O7: such a word is the decoder's `ILLEGAL_OP`. -/
theorem illegalOpcodeFaults : Obligations.IllegalOpcodeFaults := fun _ w hf hill =>
  transact_of_error hf ((decodeRejectsByName w).1.mpr hill)

/-- Settles O8: such a word is the decoder's `BAD_FIELD`. -/
theorem badFieldFaults : Obligations.BadFieldFaults := fun _ w hf hbad =>
  transact_of_error hf ((decodeRejectsByName w).2.mpr hbad)

/-- Settles O9: test 0 stands before the decoder and before every command. -/
theorem faultedBlockOnlyAnswersFault : Obligations.FaultedBlockOnlyAnswersFault := fun _ hf =>
  ⟨fun _ => unlessFaulted_of_fault hf _, fun i => exec_of_fault i hf⟩

/-- Settles O22: the count test is the first of all three commands, and code 3 is recorded only when it fails. -/
theorem countRangeFaults : Obligations.CountRangeFaults := by
  intro s k v hf i hi
  refine ⟨fun hk => ?_, fun hk t h ht hcode => ?_⟩
  · revert i
    exact List.forall_mem_cons.mpr ⟨execRdtab_of_countOutOfRange hf hk, List.forall_mem_cons.mpr
      ⟨execAdvance_of_countOutOfRange hf hk, List.forall_mem_singleton.mpr (execSeqinit_of_countOutOfRange v hf hk)⟩⟩
  · exact absurd (countOutOfRange_of_commandFault hi (commandFault_of_fcode hf h ht hcode)) (Nat.not_lt.mpr hk)

/-- Settles O24: the table test comes next after the count. -/
theorem noTableFaults : Obligations.NoTableFaults := fun _ _ _ hf hk htv =>
  List.forall_mem_cons.mpr ⟨execRdtab_of_noTable hf hk htv, List.forall_mem_singleton.mpr (execAdvance_of_noTable hf hk htv)⟩

/-- Settles O25: the sequence test comes next after the slot. -/
theorem noSequenceFaults : Obligations.NoSequenceFaults := fun _ _ hf hc hsv =>
  List.forall_mem_cons.mpr ⟨execCurnew_of_noSequence hf hc hsv, List.forall_mem_singleton.mpr (execNext_of_noSequence hf hc hsv)⟩

end Sys2Proof.Proofs
end

section
/-! The host's side of a step (70_reset_and_hazards.md R223 to R227): the step for each thing the host may do next, and that no step
and no command is without a next state. -/

namespace Sys2Proof.Proofs
open Sys2Proof.Machine

section hostActions
variable {s : State} {w : CommandWord} {r : ResponseWord} {rest : List HostInput}

theorem step_of_noInput (hin : s.inputs = []) : step s = .next s := by
  simp [step, hostAction, hin]

theorem step_of_takeResponse (hin : s.inputs = .takeResponse :: rest) :
    step s = .next (takeResponse { s with inputs := rest }) := by
  simp [step, hostAction, hin]

theorem step_of_reset (hin : s.inputs = .reset :: rest) : step s = .next (applyReset { s with inputs := rest }) := by
  simp [step, hostAction, hin]

/-- A command is held while a response waits (70_reset_and_hazards.md R223). -/
theorem step_of_heldCommand (hin : s.inputs = .command w :: rest) (hr : s.rsp = some r) :
    step s = .next (holdCommand w rest s) := by
  simp [step, hostAction, hin, State.cmdReady, hr]

/-- The two places a reset can have among the host's actions (70_reset_and_hazards.md R211). -/
theorem resetsNow_cases (h : resetsNow s = true) :
    (∃ rest, s.inputs = .reset :: rest) ∨ ∃ w rest r, s.inputs = .command w :: .reset :: rest ∧ s.rsp = some r := by
  unfold resetsNow at h
  split at h
  case h_1 rest hin => exact .inl ⟨rest, hin⟩
  case h_2 w rest hin => exact .inr ⟨w, rest, s.rsp.get h, hin, (Option.some_get h).symm⟩
  case h_3 => cases h

end hostActions

section progress
variable {s : State} {r : Result} {o : Option FaultCode}

theorem FaultsAs.exists_next (h : FaultsAs s r o) : ∃ t, r = .next t := by
  cases o with
  | some e => exact ⟨raiseFault e s, h⟩
  | none =>
    obtain ⟨t, hr, -⟩ := h
    exact ⟨t, hr⟩

theorem exec_exists_next (i : Instr) (s : State) : ∃ t, exec i s = .next t := by
  cases hf : s.fault with
  | true => exact ⟨_, exec_of_fault i hf⟩
  | false => exact (exec_faultsAs hf i).exists_next

/-- A faulted block only answers (60_exceptions.md R185). -/
theorem transact_of_fault (hf : s.fault = true) (w : CommandWord) : transact w s = .next (answerFaulted s) :=
  unlessFaulted_of_fault hf _

theorem transact_exists_next (w : CommandWord) (s : State) : ∃ t, transact w s = .next t := by
  cases hf : s.fault with
  | true => exact ⟨_, transact_of_fault hf w⟩
  | false => exact (transact_faultsAs hf w).exists_next

theorem step_exists_next (s : State) : ∃ t, step s = .next t := by
  match hin : s.inputs with
  | [] => exact ⟨_, step_of_noInput hin⟩
  | .reset :: rest => exact ⟨_, step_of_reset hin⟩
  | .takeResponse :: rest => exact ⟨_, step_of_takeResponse hin⟩
  | .command w :: rest =>
    cases hr : s.rsp with
    | some r => exact ⟨_, step_of_heldCommand hin hr⟩
    | none =>
      rw [step_of_command hin hr]
      exact transact_exists_next w _

end progress

/-- Settles O12: the step by the host's next action, the command by its first failing test (`exec_faultsAs`). -/
theorem nothingStopsTheBlock : Obligations.NothingStopsTheBlock := ⟨step_exists_next, exec_exists_next⟩

/-- Settles O10: each clause is the step for that action of the host; of what holding a command can do (`holdCommand_cases`), the
second clause excludes the response taken and the reset. -/
theorem hostWaitsAndTakesResponses : Obligations.HostWaitsAndTakesResponses := by
  intro s
  refine ⟨step_of_noInput, fun w r rest hin hr htake hreset => ?_, fun rest => step_of_takeResponse,
    fun w r rest => step_of_heldCommand⟩
  rw [step_of_heldCommand hin hr]
  obtain ⟨hsame, -⟩ | ⟨more, hrest, -⟩ | ⟨more, hrest, -⟩ := holdCommand_cases w rest s
  · rw [hsame]
  · exact absurd hrest (htake more)
  · exact absurd hrest (hreset more)

/-- Settles O14: the step is the reset in both places it can have (`resetsNow_cases`), and a reset keeps the configuration. -/
theorem resetLeavesBlockReady : Obligations.ResetLeavesBlockReady := by
  intro s h
  obtain ⟨more, hstep, hlength⟩ : ∃ more, step s = .next (applyReset { s with inputs := more }) ∧
      more.length + 1 = s.inputs.length := by
    obtain ⟨rest, hin⟩ | ⟨w, rest, r, hin, hr⟩ := resetsNow_cases h
    · exact ⟨rest, step_of_reset hin, by simp [hin]⟩
    · exact ⟨.command w :: rest, step_of_heldCommand hin hr, by simp [hin]⟩
  exact ⟨more, hstep, hlength, rfl, ncur_applyReset _, rfl⟩

end Sys2Proof.Proofs
end

section
/-! What every accepted command leaves: a response word (70_reset_and_hazards.md R224, R226; 30_encoding.md R80, R81), and `TV`,
`FAULT` and `FCODE` once they are set (70_reset_and_hazards.md R210, 10_state.md R32). -/

namespace Sys2Proof.Proofs
open Sys2Proof.Machine

section answers
variable {i : Instr} {w : CommandWord} {s t : State}

/-- The word `r` waits in `t` and is one of the responses that are ever produced: OK with a value, END with value 0, or FAULT with the
code of the faulted block (30_encoding.md R81). -/
def AnsweredBy (t : State) (r : ResponseWord) : Prop :=
  t.rsp = some r ∧ ((∃ v : Word, r = 0x0#4 ++ v) ∨ r = 0x100000000#36 ∨
    (t.fault = true ∧ r = 0xF#4 ++ (t.fcode.setWidth 32 : Word)))

theorem answeredBy_respond_ok (v : Word) (s : State) : AnsweredBy (respond .ok v s) (responseWord .ok v) :=
  ⟨rfl, .inl ⟨v, rfl⟩⟩

theorem answeredBy_respond_ended (s : State) : AnsweredBy (respond .ended 0#32 s) (responseWord .ended 0#32) :=
  ⟨rfl, .inr (.inl rfl)⟩

theorem answeredBy_answerFaulted (hf : s.fault = true) :
    AnsweredBy (answerFaulted s) (responseWord .fault (faultValue s.fcode)) :=
  ⟨rfl, .inr (.inr ⟨hf, rfl⟩)⟩

theorem answeredBy_raiseFault (e : FaultCode) (s : State) :
    AnsweredBy (raiseFault e s) (responseWord .fault (faultValue e.code)) :=
  ⟨rfl, .inr (.inr ⟨rfl, rfl⟩)⟩

theorem completes_answeredBy (hc : Completes s i t) : ∃ r, AnsweredBy t r := by
  cases hc with
  | nextEnd | nextDone => exact ⟨_, answeredBy_respond_ended _⟩
  | _ => exact ⟨_, answeredBy_respond_ok _ _⟩

theorem exec_answeredBy (h : exec i s = .next t) : ∃ r, AnsweredBy t r := by
  obtain ⟨hf, rfl⟩ | ⟨-, e, -, -, rfl⟩ | ⟨-, hc⟩ := exec_cases h
  · exact ⟨_, answeredBy_answerFaulted hf⟩
  · exact ⟨_, answeredBy_raiseFault e s⟩
  · exact completes_answeredBy hc

theorem transact_answeredBy (h : transact w s = .next t) : ∃ r, AnsweredBy t r := by
  obtain ⟨hf, rfl⟩ | ⟨e, -, -, rfl⟩ | ⟨i, -, -, he⟩ := transact_cases h
  · exact ⟨_, answeredBy_answerFaulted hf⟩
  · exact ⟨_, answeredBy_raiseFault (illegalCode e) s⟩
  · exact exec_answeredBy he

end answers

section sticky
variable {i : Instr} {w : CommandWord} {s t : State}

/-- The two builders set `TV` and no command clears it (10_state.md R25). -/
theorem exec_keeps_tableValid (h : exec i s = .next t) (htv : s.tv = true) : t.tv = true := by
  obtain ⟨-, rfl⟩ | ⟨-, e, -, -, rfl⟩ | ⟨-, hc⟩ := exec_cases h
  · exact htv
  · exact htv
  · cases hc with
    | build | seqinit => rfl
    | _ => exact htv

theorem transact_keeps_tableValid (h : transact w s = .next t) (htv : s.tv = true) : t.tv = true := by
  obtain ⟨-, rfl⟩ | ⟨e, -, -, rfl⟩ | ⟨i, -, -, he⟩ := transact_cases h
  · exact htv
  · exact htv
  · exact exec_keeps_tableValid he htv

theorem transact_keeps_faulted (h : transact w s = .next t) (hf : s.fault = true) : t.fault = true ∧ t.fcode = s.fcode := by
  obtain rfl := Host.Outcome.next.inj ((transact_of_fault hf w).symm.trans h)
  exact ⟨hf, rfl⟩

end sticky

/-- Settles O11: a transaction has a next state, and whichever way it goes its answer waits there (`transact_answeredBy`). -/
theorem acceptedCommandIsAnswered : Obligations.AcceptedCommandIsAnswered := by
  intro s w
  obtain ⟨t, ht⟩ := transact_exists_next w s
  obtain ⟨r, hr⟩ := transact_answeredBy ht
  exact ⟨t, r, ht, hr⟩

/-- Settles O17: of the things a step can do (`step_cases`), other than a reset only a transaction touches these registers. -/
theorem onlyResetClearsTableValidAndFault : Obligations.OnlyResetClearsTableValidAndFault := by
  intro s t h hno
  obtain ⟨rfl, -⟩ | ⟨hreset, -⟩ | ⟨-, more, rfl⟩ | ⟨-, w, rest, -, -, ht⟩ := step_cases h
  · exact ⟨id, fun hf => ⟨hf, rfl⟩⟩
  · exact absurd (hreset.symm.trans hno) (by decide)
  · exact ⟨id, fun hf => ⟨hf, rfl⟩⟩
  · have htableValid := transact_keeps_tableValid ht
    have hfaulted := transact_keeps_faulted ht
    exact ⟨htableValid, hfaulted⟩

end Sys2Proof.Proofs
end
